-- ==== Sys2Proof/Word.lean ====
section
/-! DEFINITION. The three word sizes of BLIT565 (00_scope.md R5). -/

namespace Sys2Proof

/-- A 32-bit word: a command word, a register access, a byte address (R5, R61). -/
abbrev Word := BitVec 32

/-- A 16-bit value: a coordinate, a size, a stride, a pixel, a staging slot (R5). -/
abbrev Half := BitVec 16

/-- An 8-bit value: a byte of memory, a gray sample, an orientation, an error code (R5). -/
abbrev Byte := BitVec 8

end Sys2Proof
end

