-- ==== Sys2Proof/Config.lean ====
section
/-! DEFINITION. The parameters a model of BLIT565 takes (00_scope.md R4), the constraint on them, and the free values the
spec leaves open: the platform's own configuration and what STAGE holds after a reset. -/

namespace Sys2Proof

/-- One region of the platform's address space and what the engine may do there: the parameter MEMMAP (R4, R48) written as
plain data. DESIGN CHOICE (log 7): every pair of predicates on a finite address space is a list of these. Safe. -/
structure Region where
  base : Nat
  size : Nat
  readable : Bool
  writable : Bool
  deriving DecidableEq, Repr, Inhabited

/-- The parameters of 00_scope.md R4. They are not state of the block (R30): State carries them as constants that no step
changes (log 1). GRAYRAMP is "a constant array of 64 entries of 16 bits" (10_state.md R23). -/
structure Config where
  xMax : Nat
  yMax : Nat
  grayRamp : Vector Half 64
  axisSwapMask : Byte
  regBase : Word
  memmap : List Region
  deriving DecidableEq, Repr, Inhabited

/-- CAP, "X_MAX * Y_MAX" (R4): the number of slots of STAGE. -/
def Config.cap (c : Config) : Nat := c.xMax * c.yMax

/-- The constraints of R4: X_MAX and Y_MAX from 1 to 65536, CAP even and at least 2, AXIS_SWAP_MASK with exactly one bit set,
REG_BASE a multiple of 0x100. -/
abbrev Config.Valid (c : Config) : Prop :=
  (1 ≤ c.xMax ∧ c.xMax ≤ 65536) ∧ (1 ≤ c.yMax ∧ c.yMax ≤ 65536) ∧ (c.cap % 2 = 0 ∧ 2 ≤ c.cap) ∧
    (∃ b : Fin 8, c.axisSwapMask = 1#8 <<< b.val) ∧ c.regBase.toNat % 0x100 = 0

/-- The platform's parameters, to which the spec gives no value: a free value (log 1). -/
opaque Config.given : Config

/-- The smallest panel of R4, 2 by 1. It stands in only where `Config.given` breaks R4's constraints, so that
`Config.platform` is a valid configuration whatever `Config.given` is (log 1). -/
def Config.smallest : Config :=
  { xMax := 2, yMax := 1, grayRamp := Vector.replicate 64 0, axisSwapMask := 1, regBase := 0, memmap := [] }

/-- The configuration of the machine after reset: any valid one. A statement about it holds for every valid configuration,
since nothing in Lean can evaluate `Config.given`. DESIGN CHOICE (log 1): a configuration that breaks R4 is refused (U12). Safe. -/
def Config.platform : Config := if Config.given.Valid then Config.given else Config.smallest

/-- What slot `i` of STAGE holds after the `n`-th reset: "any value in every slot" (93_implementation_defined.md U14,
70_reset_and_hazards.md R152). A free value (log 5). -/
opaque Config.stageAfterReset : Nat → Nat → Half

end Sys2Proof
end

