-- ==== Sys2Proof/Syntax.lean ====
section
/-! DEFINITION. The syntax: the eight commands, the registers by name, and the host's accesses. -/

namespace Sys2Proof

/-- The commands of BLIT565, one constructor per row of the opcode table (30_encoding.md R64). "The command carries no register
numbers, no immediates and no mode bits" (R63), so no constructor has a field. -/
inductive Instr where
  | pic | pics | roi | gray | grayroi | cpyblk | swap16 | glut
  deriving DecidableEq, Repr

/-- The registers of the register map (30_encoding.md R61), by the spec's names. -/
inductive Reg where
  | CMD | STATUS | ORIENT | EXTENT
  | DX | DY | DW | DH | SW | SH | RX | RY | RWD | RHT
  | SRC | DST | SSTR | DSTR | ARG | RES
  deriving DecidableEq, Repr

/-- The width of a register access on the bus. Only 32-bit accesses are defined (30_encoding.md R62a). -/
inductive AccessWidth where
  | w8 | w16 | w32
  deriving DecidableEq, Repr

/-- One move of the host, or a reset. `write` and `read` are register accesses at REG_BASE + off, encoded as R71 encodes them:
"the pair (byte offset from REG_BASE, 32-bit data word)". `store` and `load` are the host's accesses to its own memory
(00_scope.md R9), a byte at a time (log 8). `reset` is the block's one reset (70_reset_and_hazards.md R150). -/
inductive HostAccess where
  | write (off : Nat) (width : AccessWidth) (v : Word)
  | read (off : Nat) (width : AccessWidth)
  | store (addr : Nat) (v : Byte)
  | load (addr : Nat)
  | reset
  deriving DecidableEq, Repr

end Sys2Proof
end

