-- ==== Sys2Proof/WellFormed.lean ====
section
/-! DEFINITION. Which terms of the syntax are well formed. -/

namespace Sys2Proof

/-- Every command is well formed: it has no operand field that could be out of range (30_encoding.md R63, R66). -/
def Instr.wf : Instr → Bool
  | .pic => true
  | .pics => true
  | .roi => true
  | .gray => true
  | .grayroi => true
  | .cpyblk => true
  | .swap16 => true
  | .glut => true

/-- The accesses that are steps of the host: "an aligned 32-bit access at REG_BASE + offset, offset a multiple of 4 below 0x100"
(30_encoding.md R62a), and accesses to bytes of host memory, "addresses 0 to 0xFFFFFFFF" (20_memory.md R40). -/
def HostAccess.wf : HostAccess → Bool
  | .write off width _ => width == .w32 && off % 4 == 0 && decide (off < 0x100)
  | .read off width => width == .w32 && off % 4 == 0 && decide (off < 0x100)
  | .store addr _ => decide (addr < 0x100000000)
  | .load addr => decide (addr < 0x100000000)
  | .reset => true

end Sys2Proof
end

