-- ==== Sys2Proof/Decode.lean ====
section
/-! DEFINITION. Decoding a command word and a register offset, and the encoders, from the tables of 30_encoding.md. -/

namespace Sys2Proof

/-- A row of the opcode map: "a word c selects the row when c & mask = match" (30_encoding.md R64). -/
structure OpRow where
  mask : Word
  pattern : Word
  instr : Instr
  deriving DecidableEq, Repr

/-- The opcode map of R64. -/
def opRows : List OpRow :=
  [ ⟨0xFFFFFFFF, 0x00000001, .pic⟩,
    ⟨0xFFFFFFFF, 0x00000002, .pics⟩,
    ⟨0xFFFFFFFF, 0x00000003, .roi⟩,
    ⟨0xFFFFFFFF, 0x00000004, .gray⟩,
    ⟨0xFFFFFFFF, 0x00000005, .grayroi⟩,
    ⟨0xFFFFFFFF, 0x00000006, .cpyblk⟩,
    ⟨0xFFFFFFFF, 0x00000007, .swap16⟩,
    ⟨0xFFFFFFFF, 0x00000008, .glut⟩ ]

/-- Why a command word is illegal (R65). Both end the command with E_OP (R133). -/
inductive DecodeError where
  /-- A bit of the field ZERO, bits 31:8, is set. -/
  | zeroFieldSet
  /-- OP, bits 7:0, is 0x00 or from 0x09 to 0xFF. -/
  | unassignedOp
  deriving DecidableEq, Repr

/-- The command a word encodes. Total on all words: every word of no row is illegal (R65). -/
def decodeWord (w : Word) : Except DecodeError Instr :=
  match opRows.find? (fun r => w &&& r.mask == r.pattern) with
  | some r => .ok r.instr
  | none => if w >>> 8 = 0 then .error .unassignedOp else .error .zeroFieldSet

/-- The one legal word of each command (R64): OP in bits 7:0, ZERO in bits 31:8 (R63). -/
def encode : Instr → Word
  | .pic => 0x00000001
  | .pics => 0x00000002
  | .roi => 0x00000003
  | .gray => 0x00000004
  | .grayroi => 0x00000005
  | .cpyblk => 0x00000006
  | .swap16 => 0x00000007
  | .glut => 0x00000008

/-- The decoder on a word numbered as the opcode table numbers it. A command is one 32-bit word that never lies in memory, so
there is no byte order to apply (R63, 20_memory.md R45). -/
def decodeTableWord (nbits w : Nat) : Option Instr :=
  if nbits ≤ 32 ∧ w < 2 ^ 32 then
    match decodeWord (BitVec.ofNat 32 w) with
    | .ok i => some i
    | .error _ => none
  else none

/-- The byte offset of a register from REG_BASE (30_encoding.md R61). -/
def Reg.offset : Reg → Nat
  | .CMD => 0x00
  | .STATUS => 0x04
  | .ORIENT => 0x08
  | .EXTENT => 0x0C
  | .DX => 0x10
  | .DY => 0x14
  | .DW => 0x18
  | .DH => 0x1C
  | .SW => 0x20
  | .SH => 0x24
  | .RX => 0x28
  | .RY => 0x2C
  | .RWD => 0x30
  | .RHT => 0x34
  | .SRC => 0x38
  | .DST => 0x3C
  | .SSTR => 0x40
  | .DSTR => 0x44
  | .ARG => 0x48
  | .RES => 0x4C

/-- The register at a byte offset; none at a reserved offset, 0x50 to 0xFC (R61). -/
def Reg.ofOffset : Nat → Option Reg
  | 0x00 => some .CMD
  | 0x04 => some .STATUS
  | 0x08 => some .ORIENT
  | 0x0C => some .EXTENT
  | 0x10 => some .DX
  | 0x14 => some .DY
  | 0x18 => some .DW
  | 0x1C => some .DH
  | 0x20 => some .SW
  | 0x24 => some .SH
  | 0x28 => some .RX
  | 0x2C => some .RY
  | 0x30 => some .RWD
  | 0x34 => some .RHT
  | 0x38 => some .SRC
  | 0x3C => some .DST
  | 0x40 => some .SSTR
  | 0x44 => some .DSTR
  | 0x48 => some .ARG
  | 0x4C => some .RES
  | _ => none

end Sys2Proof
end

