-- ==== Sys2Proof/Machine/State.lean ====
section
/-! DEFINITION. The state of the machine as plain data, the reasons a step can stop, and the state after reset. -/

namespace Sys2Proof.Machine

/-- The error codes a command can end with (60_exceptions.md R130). -/
inductive Err where
  | op | zero | odd | cap | coord | roi | align | overlap | bus
  deriving DecidableEq, Repr

/-- The events of the output log (10_state.md R25). -/
inductive Event where
  /-- "the memory-access-control command with data byte d". -/
  | orient (d : Byte)
  /-- The address window, "four 16-bit coordinates, inclusive corners". -/
  | window (x1 y1 x2 y2 : Half)
  /-- Slots of STAGE, in slot order. -/
  | data16 (slots : List Half)
  /-- Bytes of host memory, in address order. -/
  | data8 (bytes : List Byte)
  deriving DecidableEq, Repr

/-- What a read of the host returned (30_encoding.md R71): the model's own record (log 3). -/
inductive Reply where
  /-- A register read, "-> value". -/
  | reg (v : Word)
  /-- A load of a byte of host memory. -/
  | byte (v : Byte)
  deriving DecidableEq, Repr

/-- What stops the machine. No command does: an error of a command is a next state (60_exceptions.md R131). -/
inductive Fault where
  /-- Raised by the host's own load or store at an address above 0xFFFFFFFF, which does not exist (20_memory.md R40).
  DEDUCED (log 9). Safe. -/
  | noSuchAddress
  deriving DecidableEq, Repr

/-- Host accesses that are no step of the host. -/
inductive Refusal where
  /-- An instruction that has no meaning yet. No arm of `exec` raises it. -/
  | notModelled (mnemonic : String)
  /-- Raised by a register access narrower than 32 bits: "a model refuses it" (30_encoding.md R62a; log 10). Safe. -/
  | narrowAccess
  /-- Raised by a register access at an offset that is not a multiple of 4 (R62a; log 10). Safe. -/
  | misalignedOffset
  /-- Raised by a register access outside the 0x100-byte block (R62a, 93_implementation_defined.md U19; log 10). Safe. -/
  | outsideBlock
  deriving DecidableEq, Repr

/-- Host memory: the bytes that differ from what an unlisted address reads as, by rising address (20_memory.md R41). -/
abbrev Memory := List Host.Cell

/-- The machine. `dx` to `out` are the record of 10_state.md R30; `mem` is host memory, "state of the platform"; `cfg` holds the
parameters of 00_scope.md R4, constant; `pending`, `replies` and `resets` are the model's own (log 2, 3, 5). -/
structure State where
  cfg : Config
  dx : Half
  dy : Half
  dw : Half
  dh : Half
  sw : Half
  sh : Half
  rx : Half
  ry : Half
  rwd : Half
  rht : Half
  src : Word
  dst : Word
  sstr : Half
  dstr : Half
  arg : Half
  res : Half
  orient : Byte
  /-- STATUS.CODE, bits 7:0 of STATUS (R15). -/
  code : Byte
  /-- STATUS.STICKY, bit 8 of STATUS (R15). -/
  sticky : Bool
  /-- STAGE, slot 0 first (R21). -/
  stage : List Half
  /-- OUT, oldest event first (R24). -/
  out : List Event
  /-- Host memory. -/
  mem : Memory
  /-- The host accesses still to come, the next one first. -/
  pending : List HostAccess
  /-- What the host's reads returned, oldest first. -/
  replies : List Reply
  /-- The number of the reset whose free values STAGE was given. -/
  resets : Nat
  deriving DecidableEq, Repr

/-- The contents of STAGE after the `n`-th reset: CAP slots, unspecified (70_reset_and_hazards.md R152). -/
def stageAfter (c : Config) (n : Nat) : List Half := (List.range c.cap).map (Config.stageAfterReset n)

/-- The machine with configuration `c` right after reset (10_state.md R29), no host access pending. -/
def State.resetOf (c : Config) : State :=
  { cfg := c
    dx := 0, dy := 0, dw := 0, dh := 0, sw := 0, sh := 0, rx := 0, ry := 0, rwd := 0, rht := 0
    src := 0, dst := 0, sstr := 0, dstr := 0, arg := 0, res := 0
    orient := 0, code := 0, sticky := false
    stage := stageAfter c 0
    out := []
    mem := []
    pending := []
    replies := []
    resets := 0 }

/-- The machine right after reset, whatever valid configuration its platform has (log 1). -/
def State.reset : State := State.resetOf Config.platform

end Sys2Proof.Machine
end

