-- ==== Sys2Proof/Machine/Flags.lean ====
section
/-! DEFINITION. STATUS, the only flag state of BLIT565 (10_state.md R15): the error codes, how a command ends, how the host
reads STATUS and clears STICKY, and the rule that the first failing check is the one reported. -/

namespace Sys2Proof.Machine

/-- The code of an error as STATUS.CODE holds it (60_exceptions.md R130). -/
def Err.code : Err → Byte
  | .op => 1
  | .zero => 2
  | .odd => 3
  | .cap => 4
  | .coord => 5
  | .roi => 6
  | .align => 7
  | .overlap => 8
  | .bus => 9

/-- Ending a command in an error, the one shared operation: "exactly these effects: STATUS.CODE <- code of E_NAME;
STATUS.STICKY <- 1. Nothing else changes" (60_exceptions.md R131). Nothing is entered, so there is no return from it (R144). -/
def State.raise (e : Err) (s : State) : State := { s with code := e.code, sticky := true }

/-- Ending a command that completes: CODE <- OK, STICKY unchanged (R15, R130). -/
def State.succeed (s : State) : State := { s with code := 0 }

/-- STATUS as the host reads it: CODE in bits 7:0, STICKY in bit 8, bits 31:9 read 0 (R15). -/
def State.statusWord (s : State) : Word :=
  s.code.setWidth 32 ||| (if s.sticky then 0x100 else 0)

/-- A host write to STATUS: "with bit 8 = 1 clears STICKY; with bit 8 = 0 it changes nothing; it never changes CODE" (R15). -/
def State.writeStatus (v : Word) (s : State) : State :=
  { s with sticky := s.sticky && !v.getLsbD 8 }

/-- The first failing check, in the order written (60_exceptions.md R132). A pair is the condition under which the check fails
and the error it raises. -/
def firstError : List (Bool × Err) → Option Err
  | [] => none
  | (fails, e) :: rest => if fails then some e else firstError rest

/-- A command: its checks, all before its first effect, then its effect and CODE <- OK (R131). -/
def runCommand (checks : List (Bool × Err)) (effect : State → State) (s : State) : Host.Outcome State Fault Refusal :=
  match firstError checks with
  | some e => .next (s.raise e)
  | none => .next (effect s).succeed

end Sys2Proof.Machine
end

