-- ==== Sys2Proof/Machine/Ops.lean ====
section
/-! DEFINITION. The named operations over host memory, the engine's admission to it, STAGE, OUT, and reset. Ending a command in
an error (the exception of this hardware) is `State.raise` in Machine/Flags.lean; there is no return from it (R144). -/

namespace Sys2Proof.Machine

/-! ### Host memory -/

/-- What a byte of host memory that nothing has written reads as. DESIGN CHOICE (log 4): the spec does not say what memory holds
before the host writes it. Unsafe. -/
def Memory.blank : Byte := 0

/-- The canonical form of host memory: addresses strictly rising, within 20_memory.md R40's 2^32 bytes, no entry equal to what an
unlisted address reads as. -/
abbrev Memory.wf (m : Memory) : Prop :=
  m.Pairwise (fun x y => x.1 < y.1) ∧ ∀ c ∈ m, c.2 ≠ Memory.blank ∧ c.1 < 0x100000000

/-- MemRead(addr, 1) (R42). -/
def Memory.read : Memory → Nat → Byte
  | [], _ => Memory.blank
  | (a, b) :: rest, k => if a = k then b else Memory.read rest k

/-- MemWrite(addr, 1, v) (R43), keeping the canonical form. -/
def Memory.write : Memory → Nat → Byte → Memory
  | [], k, v => if v = Memory.blank then [] else [(k, v)]
  | (a, b) :: rest, k, v =>
    if k < a then (if v = Memory.blank then (a, b) :: rest else (k, v) :: (a, b) :: rest)
    else if a = k then (if v = Memory.blank then rest else (k, v) :: rest)
    else (a, b) :: Memory.write rest k v

/-- MemRead(addr, 2) = Mem[addr] | (Mem[addr + 1] << 8): little-endian (R42, R44). -/
def Memory.read2 (m : Memory) (a : Nat) : Half :=
  (Memory.read m a).setWidth 16 ||| ((Memory.read m (a + 1)).setWidth 16 <<< 8)

/-- `n` bytes from `a` on, in address order. -/
def Memory.bytes (m : Memory) (a n : Nat) : List Byte := (List.range n).map fun k => Memory.read m (a + k)

/-! ### Admission -/

/-- An address of the register block, REG_BASE to REG_BASE + 0xFF (R41, R51). -/
def inRegisterBlock (c : Config) (a : Nat) : Bool :=
  decide (c.regBase.toNat ≤ a) && decide (a < c.regBase.toNat + 0x100)

/-- The addresses a region covers. -/
def regionCovers (r : Region) (a : Nat) : Bool := decide (r.base ≤ a) && decide (a < r.base + r.size)

/-- An address the engine may read: not above 0xFFFFFFFF (R49), Readable, and not in the register block (R41, R48). -/
def admitsRead (c : Config) (a : Nat) : Bool :=
  decide (a < 0x100000000) && !inRegisterBlock c a && c.memmap.any fun r => r.readable && regionCovers r a

/-- An address the engine may write (R48, R49). -/
def admitsWrite (c : Config) (a : Nat) : Bool :=
  decide (a < 0x100000000) && !inRegisterBlock c a && c.memmap.any fun r => r.writable && regionCovers r a

/-- A range of byte addresses, [start, start + len), of a footprint (R58). -/
structure Span where
  start : Nat
  len : Nat
  deriving DecidableEq, Repr

/-- A span contains an address. -/
def Span.has (p : Span) (a : Nat) : Bool := decide (p.start ≤ a) && decide (a < p.start + p.len)

/-- Every address of a footprint passes a test. -/
def footprintAll (ok : Nat → Bool) (fp : List Span) : Bool :=
  fp.all fun p => (List.range p.len).all fun k => ok (p.start + k)

/-- Two spans share a byte address. -/
def Span.meets (p q : Span) : Bool :=
  decide (0 < p.len) && decide (0 < q.len) && decide (p.start < q.start + q.len) && decide (q.start < p.start + p.len)

/-- Two footprints share a byte address (43_copy.md R122). -/
def footprintsMeet (fp fq : List Span) : Bool := fp.any fun p => fq.any fun q => p.meets q

/-! ### STAGE and OUT -/

/-- The pair rule (41_staged_blit.md R105): `n` pairs of slots, slot 2k the element that comes second in the source and slot
2k + 1 the one that comes first. -/
def stagePairs (n : Nat) (f : Nat → Half) : List Half := (List.range n).flatMap fun k => [f (2 * k + 1), f (2 * k)]

/-- STAGE with slots 0 to new.length - 1 overwritten; "the other slots keep their old values" (R95). -/
def State.writeStage (new : List Half) (s : State) : State := { s with stage := new ++ s.stage.drop new.length }

/-- `emit E`: OUT is "only ever appended to" (10_state.md R24). -/
def State.emit (e : Event) (s : State) : State := { s with out := s.out ++ [e] }

/-- `emit Data16([STAGE[0], ..., STAGE[n - 1]])`. -/
def State.emitStage (n : Nat) (s : State) : State := s.emit (.data16 (s.stage.take n))

/-! ### Reset -/

/-- A reset while the machine runs (70_reset_and_hazards.md R150): every register at its value of R29, host memory as it was, no
event. DESIGN CHOICE (log 6): of the two treatments of OUT that R151 allows, the model keeps it, as the history of what was sent.
STAGE holds free values, those of the next reset (R152; log 5). -/
def State.hostReset (s : State) : State :=
  { State.resetOf s.cfg with
    stage := stageAfter s.cfg (s.resets + 1)
    out := s.out
    mem := s.mem
    pending := s.pending
    replies := s.replies
    resets := s.resets + 1 }

end Sys2Proof.Machine
end

