-- ==== Sys2Proof/Machine/Operands.lean ====
section
/-! DEFINITION. The datapath functions, the registers as the host sees them, the window and the checks several commands share,
and the footprints of 20_memory.md R58. -/

namespace Sys2Proof.Machine

/-! ### Datapath functions -/

/-- swap16(v) = ((v & 0x00FF) << 8) | (v >> 8) (40_scalar.md R80). -/
def swap16 (v : Half) : Half := ((v &&& 0x00FF) <<< 8) ||| (v >>> 8)

/-- GRAYRAMP[k], 0 to 63 (10_state.md R23). -/
def rampEntry (c : Config) (k : BitVec 6) : Half := c.grayRamp[k.toNat]'k.isLt

/-- gray565(v) = GRAYRAMP[v >> 2], the index being v[7:2] (40_scalar.md R83, 30_encoding.md R73). -/
def gray565 (c : Config) (v : Byte) : Half := rampEntry c (v.extractLsb' 2 6)

/-! ### Extent, window and the checks on them -/

/-- The axis-swap bit of ORIENT is set (10_state.md R17). -/
def State.axesSwapped (s : State) : Bool := s.orient &&& s.cfg.axisSwapMask != 0

/-- EXT_W (R17). -/
def State.extW (s : State) : Nat := if s.axesSwapped then s.cfg.yMax - 1 else s.cfg.xMax - 1

/-- EXT_H (R17). -/
def State.extH (s : State) : Nat := if s.axesSwapped then s.cfg.xMax - 1 else s.cfg.yMax - 1

/-- EXTENT: EXT_W in bits 15:0, EXT_H in bits 31:16 (R17). -/
def State.extentWord (s : State) : Word := BitVec.ofNat 16 s.extH ++ BitVec.ofNat 16 s.extW

/-- The window of `w` by `h` pixels whose first pixel is (DX, DY + line): (DX, DY + line, DX + w - 1, DY + line + h - 1)
(41_staged_blit.md R93, 42_roi.md R111). A command that passed its window check truncates no coordinate (60_exceptions.md R137). -/
def State.windowAt (s : State) (line w h : Nat) : Event :=
  .window s.dx (BitVec.ofNat 16 (s.dy.toNat + line)) (BitVec.ofNat 16 (s.dx.toNat + w - 1))
    (BitVec.ofNat 16 (s.dy.toNat + line + h - 1))

/-- A corner of the window of `w` by `h` pixels at (DX, DY) exceeds the extent: the condition of E_COORD (R137). -/
def State.coordFails (s : State) (w h : Nat) : Bool :=
  decide (s.dx.toNat + w - 1 > s.extW) || decide (s.dy.toNat + h - 1 > s.extH)

/-- The region is not inside the source image: the condition of E_ROI (R138). -/
def State.regionFails (s : State) : Bool :=
  decide (s.rx.toNat + s.rwd.toNat > s.sw.toNat) || decide (s.ry.toNat + s.rht.toNat > s.sh.toNat)

/-- A byte of the read footprint is above 0xFFFFFFFF or not Readable: the condition of E_BUS of the blits (R141). -/
def State.readFails (s : State) (fp : List Span) : Bool := !footprintAll (admitsRead s.cfg) fp

/-! ### Source addresses and footprints -/

/-- The source index of destination pixel (xx, yy) of PICS: sy(yy) * SW + sx(xx), with floor division (41_staged_blit.md R97). -/
def State.scaledIndex (s : State) (xx yy : Nat) : Nat :=
  (yy * s.sh.toNat / s.dh.toNat) * s.sw.toNat + xx * s.sw.toNat / s.dw.toNat

/-- The first byte of a line of ROI: SRC + SW*2*(RY + line) + 2*RX (42_roi.md R111). -/
def State.roiAddr (s : State) (line : Nat) : Nat :=
  s.src.toNat + s.sw.toNat * 2 * (s.ry.toNat + line) + 2 * s.rx.toNat

/-- The first byte of a line of GRAYROI: SRC + SW*(RY + line) + RX (42_roi.md R114). -/
def State.grayRoiAddr (s : State) (line : Nat) : Nat :=
  s.src.toNat + s.sw.toNat * (s.ry.toNat + line) + s.rx.toNat

/-- The first source byte of a row of CPYBLK: SRC + SSTR*2*row (43_copy.md R121). -/
def State.copySrcAddr (s : State) (row : Nat) : Nat := s.src.toNat + s.sstr.toNat * 2 * row

/-- The first destination byte of a row of CPYBLK: DST + DSTR*2*(DY + row) + DX*2 (R121). -/
def State.copyDstAddr (s : State) (row : Nat) : Nat :=
  s.dst.toNat + s.dstr.toNat * 2 * (s.dy.toNat + row) + s.dx.toNat * 2

/-- The read footprint of each command (20_memory.md R58). -/
def State.readFootprint (s : State) : Instr → List Span
  | .pic => [⟨s.src.toNat, 2 * s.cfg.cap⟩]
  | .pics => (List.range s.dh.toNat).flatMap fun yy =>
      (List.range s.dw.toNat).map fun xx => ⟨s.src.toNat + 2 * s.scaledIndex xx yy, 2⟩
  | .roi => (List.range s.rht.toNat).map fun line => ⟨s.roiAddr line, 2 * s.rwd.toNat⟩
  | .gray => [⟨s.src.toNat, s.cfg.cap⟩]
  | .grayroi => (List.range s.rht.toNat).map fun line => ⟨s.grayRoiAddr line, s.cfg.cap⟩
  | .cpyblk => (List.range s.sh.toNat).map fun row => ⟨s.copySrcAddr row, 2 * s.sw.toNat⟩
  | .swap16 => []
  | .glut => []

/-- The write footprint of each command (R58): only CPYBLK writes host memory (R43). -/
def State.writeFootprint (s : State) : Instr → List Span
  | .pic => []
  | .pics => []
  | .roi => []
  | .gray => []
  | .grayroi => []
  | .cpyblk => (List.range s.sh.toNat).map fun row => ⟨s.copyDstAddr row, 2 * s.sw.toNat⟩
  | .swap16 => []
  | .glut => []

/-! ### The registers as the host sees them -/

/-- What a 32-bit read of a register returns: a 16-bit register zero-extended (R11), CMD 0 (R14). -/
def State.readReg (s : State) : Reg → Word
  | .CMD => 0
  | .STATUS => s.statusWord
  | .ORIENT => s.orient.setWidth 32
  | .EXTENT => s.extentWord
  | .DX => s.dx.setWidth 32
  | .DY => s.dy.setWidth 32
  | .DW => s.dw.setWidth 32
  | .DH => s.dh.setWidth 32
  | .SW => s.sw.setWidth 32
  | .SH => s.sh.setWidth 32
  | .RX => s.rx.setWidth 32
  | .RY => s.ry.setWidth 32
  | .RWD => s.rwd.setWidth 32
  | .RHT => s.rht.setWidth 32
  | .SRC => s.src
  | .DST => s.dst
  | .SSTR => s.sstr.setWidth 32
  | .DSTR => s.dstr.setWidth 32
  | .ARG => s.arg.setWidth 32
  | .RES => s.res.setWidth 32

/-- A read at an offset: "a read of a reserved offset returns 0" (30_encoding.md R62d). -/
def State.readOffset (s : State) (off : Nat) : Word :=
  match Reg.ofOffset off with
  | some r => s.readReg r
  | none => 0

/-- A host write to ORIENT: "x[ORIENT] <- v[7:0], then emit Orient(v[7:0])" (10_state.md R16). -/
def State.writeOrient (v : Word) (s : State) : State :=
  { s with orient := v.setWidth 8 }.emit (.orient (v.setWidth 8))

/-- A host write to any register but CMD: the low bits that hold state are stored and the rest dropped (R11, R62b), a write to a
read-only register is ignored (R12, R17, R62c). A write to CMD runs a command (R14) and is not made here. -/
def State.writeReg (r : Reg) (v : Word) (s : State) : State :=
  match r with
  | .CMD => s
  | .STATUS => s.writeStatus v
  | .ORIENT => s.writeOrient v
  | .EXTENT => s
  | .DX => { s with dx := v.setWidth 16 }
  | .DY => { s with dy := v.setWidth 16 }
  | .DW => { s with dw := v.setWidth 16 }
  | .DH => { s with dh := v.setWidth 16 }
  | .SW => { s with sw := v.setWidth 16 }
  | .SH => { s with sh := v.setWidth 16 }
  | .RX => { s with rx := v.setWidth 16 }
  | .RY => { s with ry := v.setWidth 16 }
  | .RWD => { s with rwd := v.setWidth 16 }
  | .RHT => { s with rht := v.setWidth 16 }
  | .SRC => { s with src := v }
  | .DST => { s with dst := v }
  | .SSTR => { s with sstr := v.setWidth 16 }
  | .DSTR => { s with dstr := v.setWidth 16 }
  | .ARG => { s with arg := v.setWidth 16 }
  | .RES => s

/-! ### The window on the sink's side -/

/-- WindowBytesH(x1, x2), the payload of HORIZONTAL_ADDRESS_SET, and WindowBytesV(y1, y2), that of VERTICAL_ADDRESS_SET: two
coordinates of 2 bytes, high byte first (30_encoding.md R68). -/
def windowBytes (a b : Half) : List Byte :=
  [a.extractLsb' 8 8, a.extractLsb' 0 8, b.extractLsb' 8 8, b.extractLsb' 0 8]

end Sys2Proof.Machine
end

