-- ==== Sys2Proof/Machine/Copy.lean ====
section
/-! DEFINITION. The raw block copy (43_copy.md): CPYBLK, the one command that writes host memory. -/

namespace Sys2Proof.Machine

/-- The checks of CPYBLK, in order (R122). -/
def State.copyChecks (s : State) : List (Bool × Err) :=
  [ (s.sw == 0 || s.sh == 0, .zero),
    (footprintsMeet (s.readFootprint .cpyblk) (s.writeFootprint .cpyblk) ||
      (decide (2 ≤ s.sh.toNat) && decide (s.dstr.toNat < s.sw.toNat)), .overlap),
    (!footprintAll (admitsRead s.cfg) (s.readFootprint .cpyblk) ||
      !footprintAll (admitsWrite s.cfg) (s.writeFootprint .cpyblk), .bus) ]

/-- `n` bytes copied from `sa` to `da`, one at a time: MemWrite(da + b, 1, MemRead(sa + b, 1)) for each b (R121). -/
def Memory.copyRow (sa da n : Nat) (m : Memory) : Memory :=
  (List.range n).foldl (fun m b => Memory.write m (da + b) (Memory.read m (sa + b))) m

/-- The rows of the block, row 0 first (R121). The order is unobservable (93_implementation_defined.md U22; log 13). -/
def State.copyRows (s : State) : Memory :=
  (List.range s.sh.toNat).foldl
    (fun m row => Memory.copyRow (s.copySrcAddr row) (s.copyDstAddr row) (2 * s.sw.toNat) m) s.mem

/-- CPYBLK (R120). -/
def execCpyblk (s : State) : Host.Outcome State Fault Refusal :=
  runCommand s.copyChecks (fun s => { s with mem := s.copyRows }) s

end Sys2Proof.Machine
end

