-- ==== Sys2Proof/Machine/StagedBlit.lean ====
section
/-! DEFINITION. The staged blit commands (41_staged_blit.md): PIC, PICS and GRAY. -/

namespace Sys2Proof.Machine

/-- P(k), the k-th source pixel of PIC, byte-swapped (R92). -/
def State.picPixel (s : State) (k : Nat) : Half := swap16 (Memory.read2 s.mem (s.src.toNat + 2 * k))

/-- Sample(xx, yy) of PICS, byte-swapped (R97). -/
def State.picsPixel (s : State) (xx yy : Nat) : Half :=
  swap16 (Memory.read2 s.mem (s.src.toNat + 2 * s.scaledIndex xx yy))

/-- GRAYRAMP[B(k) >> 2], the k-th sample from address `a` looked up (R102). -/
def State.grayPixel (s : State) (a k : Nat) : Half := gray565 s.cfg (Memory.read s.mem (a + k))

/-- Window, remap into STAGE, then stream `w * h` slots, in that order (R93, R98, R103). `new` are the slots the remap writes. -/
def State.stagedBlit (line w h : Nat) (new : List Half) (s : State) : State :=
  ((s.emit (s.windowAt line w h)).writeStage new).emitStage (w * h)

/-- The checks of PIC, in order (R91). -/
def State.picChecks (s : State) : List (Bool × Err) :=
  [ (s.dw == 0 || s.dh == 0, .zero),
    (decide (s.dw.toNat * s.dh.toNat > s.cfg.cap), .cap),
    (s.coordFails s.dw.toNat s.dh.toNat, .coord),
    (s.src.getLsbD 0, .align),
    (s.readFails (s.readFootprint .pic), .bus) ]

/-- PIC (R90): remap CAP pixels, "not width*height" (R92), stream DW*DH slots (R93). -/
def execPic (s : State) : Host.Outcome State Fault Refusal :=
  runCommand s.picChecks (fun s => s.stagedBlit 0 s.dw.toNat s.dh.toNat (stagePairs (s.cfg.cap / 2) s.picPixel)) s

/-- The checks of PICS, in order (R96). -/
def State.picsChecks (s : State) : List (Bool × Err) :=
  [ (s.dw == 0 || s.dh == 0 || s.sw == 0 || s.sh == 0, .zero),
    (s.dw.getLsbD 0, .odd),
    (decide (s.dw.toNat * s.dh.toNat > s.cfg.cap), .cap),
    (s.coordFails s.dw.toNat s.dh.toNat, .coord),
    (s.src.getLsbD 0, .align),
    (s.readFails (s.readFootprint .pics), .bus) ]

/-- The slots the remap of PICS writes, row by row, DW/2 pairs a row (R97). -/
def State.picsSlots (s : State) : List Half :=
  (List.range s.dh.toNat).flatMap fun yy => stagePairs (s.dw.toNat / 2) fun xx => s.picsPixel xx yy

/-- PICS (R95): remap DW*DH samples, stream them (R98). -/
def execPics (s : State) : Host.Outcome State Fault Refusal :=
  runCommand s.picsChecks (fun s => s.stagedBlit 0 s.dw.toNat s.dh.toNat s.picsSlots) s

/-- The checks of GRAY, in order (R101). -/
def State.grayChecks (s : State) : List (Bool × Err) :=
  [ (s.dw == 0 || s.dh == 0, .zero),
    (decide (s.dw.toNat * s.dh.toNat > s.cfg.cap), .cap),
    (s.coordFails s.dw.toNat s.dh.toNat, .coord),
    (s.readFails (s.readFootprint .gray), .bus) ]

/-- The slots StageGray(a) writes: CAP of them (R102). -/
def State.graySlots (s : State) (a : Nat) : List Half := stagePairs (s.cfg.cap / 2) (s.grayPixel a)

/-- GRAY (R100): remap CAP samples, stream DW*DH slots (R103). -/
def execGray (s : State) : Host.Outcome State Fault Refusal :=
  runCommand s.grayChecks (fun s => s.stagedBlit 0 s.dw.toNat s.dh.toNat (s.graySlots s.src.toNat)) s

end Sys2Proof.Machine
end

