-- ==== Sys2Proof/Machine/Roi.lean ====
section
/-! DEFINITION. The region-of-interest commands (42_roi.md): ROI and GRAYROI. -/

namespace Sys2Proof.Machine

/-- The checks of ROI, in order (R112). -/
def State.roiChecks (s : State) : List (Bool × Err) :=
  [ (s.rwd == 0 || s.rht == 0, .zero),
    (s.coordFails s.rwd.toNat s.rht.toNat, .coord),
    (s.regionFails, .roi),
    (s.readFails (s.readFootprint .roi), .bus) ]

/-- One line of ROI: its window, then its 2*RWD raw bytes (R111). -/
def State.roiLine (s : State) (line : Nat) : State :=
  (s.emit (s.windowAt line s.rwd.toNat 1)).emit (.data8 (Memory.bytes s.mem (s.roiAddr line) (2 * s.rwd.toNat)))

/-- ROI (R110): the lines "in ascending order, line = 0 first" (R111). -/
def execRoi (s : State) : Host.Outcome State Fault Refusal :=
  runCommand s.roiChecks (fun s => (List.range s.rht.toNat).foldl State.roiLine s) s

/-- The checks of GRAYROI, in order, "all made before the first line is processed" (R115). -/
def State.grayRoiChecks (s : State) : List (Bool × Err) :=
  [ (s.rwd == 0 || s.rht == 0, .zero),
    (decide (s.rwd.toNat > s.cfg.cap), .cap),
    (s.coordFails s.rwd.toNat s.rht.toNat, .coord),
    (s.regionFails, .roi),
    (s.readFails (s.readFootprint .grayroi), .bus) ]

/-- One line of GRAYROI: "exactly drawGrayscale(x, y+line, rw, 1, s)", with the full-CAP remap (R114). -/
def State.grayRoiLine (s : State) (line : Nat) : State :=
  s.stagedBlit line s.rwd.toNat 1 (s.graySlots (s.grayRoiAddr line))

/-- GRAYROI (R113, R114). -/
def execGrayRoi (s : State) : Host.Outcome State Fault Refusal :=
  runCommand s.grayRoiChecks (fun s => (List.range s.rht.toNat).foldl State.grayRoiLine s) s

end Sys2Proof.Machine
end

