-- ==== Sys2Proof/Machine/Scalar.lean ====
section
/-! DEFINITION. The scalar commands (40_scalar.md): SWAP16 and GLUT. Neither can fail once decoded. -/

namespace Sys2Proof.Machine

/-- SWAP16: x[RES] <- swap16(x[ARG]) (R82). -/
def execSwap16 (s : State) : Host.Outcome State Fault Refusal :=
  runCommand [] (fun s => { s with res := swap16 s.arg }) s

/-- GLUT: x[RES] <- gray565(x[ARG][7:0]); ARG[15:8] is ignored (R84). -/
def execGlut (s : State) : Host.Outcome State Fault Refusal :=
  runCommand [] (fun s => { s with res := gray565 s.cfg (s.arg.setWidth 8) }) s

end Sys2Proof.Machine
end

