-- ==== Sys2Proof/Machine/Dispatch.lean ====
section
/-! DEFINITION. One arm per command. -/

namespace Sys2Proof.Machine

def exec (i : Instr) (s : State) : Host.Outcome State Fault Refusal :=
  match i with
  | .pic => Sys2Proof.Machine.execPic s
  | .pics => Sys2Proof.Machine.execPics s
  | .roi => Sys2Proof.Machine.execRoi s
  | .gray => Sys2Proof.Machine.execGray s
  | .grayroi => Sys2Proof.Machine.execGrayRoi s
  | .cpyblk => Sys2Proof.Machine.execCpyblk s
  | .swap16 => Sys2Proof.Machine.execSwap16 s
  | .glut => Sys2Proof.Machine.execGlut s

end Sys2Proof.Machine
end

