-- ==== Sys2Proof/Machine/HostPort.lean ====
section
/-! DEFINITION. What each access of the host does (30_encoding.md R62, 10_state.md R14 to R17), and a reset. -/

namespace Sys2Proof.Machine

/-- A write of a word to CMD: "starts the command c encodes ... and the command completes before the write is acknowledged"
(R14). An illegal word "ends at once with E_OP and no other effect" (30_encoding.md R65, 60_exceptions.md R133). -/
def writeCmd (w : Word) (s : State) : Host.Outcome State Fault Refusal :=
  match decodeWord w with
  | .ok i => exec i s
  | .error _ => .next (s.raise .op)

/-- A 32-bit write at an aligned offset of the block: a write to a reserved offset is ignored (R62c). -/
def writeOffset (off : Nat) (v : Word) (s : State) : Host.Outcome State Fault Refusal :=
  match Reg.ofOffset off with
  | some .CMD => writeCmd v s
  | some r => .next (s.writeReg r v)
  | none => .next s

/-- Why a register access is no step of the host, if it is none (R62a, 93_implementation_defined.md U19). -/
def accessRefusal (off : Nat) (width : AccessWidth) : Option Refusal :=
  if 0x100 ≤ off then some .outsideBlock
  else if width ≠ .w32 then some .narrowAccess
  else if off % 4 ≠ 0 then some .misalignedOffset
  else none

/-- A store of the host into its own memory (00_scope.md R9, 20_memory.md R53a). A byte of the register block is not memory, and a
store of one byte there is an 8-bit register access (R62a). DESIGN CHOICE (log 8). Unsafe for an address that is a device. -/
def hostStore (addr : Nat) (v : Byte) (s : State) : Host.Outcome State Fault Refusal :=
  if 0x100000000 ≤ addr then .fault .noSuchAddress
  else if inRegisterBlock s.cfg addr then .refused .narrowAccess
  else .next { s with mem := Memory.write s.mem addr v }

/-- A load of the host from its own memory (R53b): as a store, and the byte read is the reply (log 3, 8). -/
def hostLoad (addr : Nat) (s : State) : Host.Outcome State Fault Refusal :=
  if 0x100000000 ≤ addr then .fault .noSuchAddress
  else if inRegisterBlock s.cfg addr then .refused .narrowAccess
  else .next { s with replies := s.replies ++ [.byte (Memory.read s.mem addr)] }

/-- One host access, complete before the next starts (R62e). "A read has no side effect" (R62d). -/
def hostAccess (a : HostAccess) (s : State) : Host.Outcome State Fault Refusal :=
  match a with
  | .write off width v =>
    match accessRefusal off width with
    | some r => .refused r
    | none => writeOffset off v s
  | .read off width =>
    match accessRefusal off width with
    | some r => .refused r
    | none => .next { s with replies := s.replies ++ [.reg (s.readOffset off)] }
  | .store addr v => hostStore addr v s
  | .load addr => hostLoad addr s
  | .reset => .next s.hostReset

/-- The access that writes a command word to CMD: `cmd MNEMONIC` (30_encoding.md R71). -/
def cmdAccess (w : Word) : HostAccess := .write Reg.CMD.offset .w32 w

end Sys2Proof.Machine
end

