-- ==== Sys2Proof/Machine/Step.lean ====
section
/-! DEFINITION. One step of the machine: the next access of the host. -/

namespace Sys2Proof.Machine

/-- One step takes the next pending access and performs it. With none pending the run is over and "the engine is then idle"
(70_reset_and_hazards.md R163): it "keeps all its state" (60_exceptions.md R147). DEDUCED (log 2). Safe. -/
def step (s : State) : Host.Outcome State Fault Refusal :=
  match s.pending with
  | [] => .next s
  | a :: rest => hostAccess a { s with pending := rest }

/-- The machine whose next access writes the command word `w` to CMD. The order of commands "is the order of the host's writes to
CMD" (10_state.md R20): there is no fetch, and the head of `pending` stands where a fetch would look (log 2). A command is one
32-bit word, so `nbits` adds nothing. -/
def State.withFetchWord (s : State) (_nbits w : Nat) : State :=
  { s with pending := cmdAccess (BitVec.ofNat 32 w) :: s.pending }

end Sys2Proof.Machine
end

