-- ==== Sys2Proof/Machine/Pseudo.lean ====
section
/-! DEFINITION. The pseudo-instructions of 30_encoding.md R72: each of the document's function calls as the host accesses it
expands to. -/

namespace Sys2Proof.Machine

/-- `wr REG, value` (R71). -/
def wr (r : Reg) (v : Word) : HostAccess := .write r.offset .w32 v

/-- `rd REG` (R71). -/
def rd (r : Reg) : HostAccess := .read r.offset .w32

/-- `cmd MNEMONIC` (R71). -/
def cmd (i : Instr) : HostAccess := cmdAccess (encode i)

/-- The document's function calls, with the document's parameter names; a value is "below 2^32" (R71). -/
inductive Call where
  | drawPicture (x y width height src : Word)
  | drawPictureScaled (x y dstW dstH srcW srcH src : Word)
  | drawPictureRegionOfInterest (x y w h rx ry rw rh src : Word)
  | drawGrayscale (x y width height src : Word)
  | drawGrayscaleRegionOfInterest (x y w h rx ry rw rh src : Word)
  | copyRawBlock (dst dstStride src srcStride srcW srcH x y : Word)
  | setOrientation (dir : Word)
  | swap16 (v : Word)
  | grayRamp (v : Word)
  | clearError
  deriving DecidableEq, Repr

/-- The expansion of a call (R72). -/
def callAccesses : Call → List HostAccess
  | .drawPicture x y width height src =>
    [wr .DX x, wr .DY y, wr .DW width, wr .DH height, wr .SRC src, cmd .pic]
  | .drawPictureScaled x y dstW dstH srcW srcH src =>
    [wr .DX x, wr .DY y, wr .DW dstW, wr .DH dstH, wr .SW srcW, wr .SH srcH, wr .SRC src, cmd .pics]
  | .drawPictureRegionOfInterest x y w h rx ry rw rh src =>
    [wr .DX x, wr .DY y, wr .SW w, wr .SH h, wr .RX rx, wr .RY ry, wr .RWD rw, wr .RHT rh, wr .SRC src, cmd .roi]
  | .drawGrayscale x y width height src =>
    [wr .DX x, wr .DY y, wr .DW width, wr .DH height, wr .SRC src, cmd .gray]
  | .drawGrayscaleRegionOfInterest x y w h rx ry rw rh src =>
    [wr .DX x, wr .DY y, wr .SW w, wr .SH h, wr .RX rx, wr .RY ry, wr .RWD rw, wr .RHT rh, wr .SRC src, cmd .grayroi]
  | .copyRawBlock dst dstStride src srcStride srcW srcH x y =>
    [wr .DST dst, wr .DSTR dstStride, wr .SRC src, wr .SSTR srcStride, wr .SW srcW, wr .SH srcH, wr .DX x, wr .DY y,
      cmd .cpyblk]
  | .setOrientation dir => [wr .ORIENT dir]
  | .swap16 v => [wr .ARG v, cmd .swap16, rd .RES]
  | .grayRamp v => [wr .ARG v, cmd .glut, rd .RES]
  | .clearError => [wr .STATUS 0x100]

end Sys2Proof.Machine
end

