-- ==== Sys2Proof/Safety.lean ====
section
/-! DEFINITION. The terms in which claims are made: which operands a command runs on, the values the rules give, the well-formed
output log, and the invariant of the machine. Written from the spec's rules on Nat, apart from the checks the meanings run. -/

namespace Sys2Proof.Safety

open Sys2Proof.Machine

/-! ### Admission (20_memory.md R41, R48, R49) -/

/-- The engine may read the byte at `a`. -/
abbrev MayRead (c : Config) (a : Nat) : Prop :=
  a < 2 ^ 32 ∧ ¬(c.regBase.toNat ≤ a ∧ a < c.regBase.toNat + 256) ∧
    ∃ r ∈ c.memmap, r.readable = true ∧ r.base ≤ a ∧ a < r.base + r.size

/-- The engine may write the byte at `a`. -/
abbrev MayWrite (c : Config) (a : Nat) : Prop :=
  a < 2 ^ 32 ∧ ¬(c.regBase.toNat ≤ a ∧ a < c.regBase.toNat + 256) ∧
    ∃ r ∈ c.memmap, r.writable = true ∧ r.base ≤ a ∧ a < r.base + r.size

/-- Some byte of `[a, a + n)` is one the engine may not read. -/
abbrev Unreadable (c : Config) (a n : Nat) : Prop := ∃ k, k < n ∧ ¬MayRead c (a + k)

/-- Some byte of `[a, a + n)` is one the engine may not write. -/
abbrev Unwritable (c : Config) (a n : Nat) : Prop := ∃ k, k < n ∧ ¬MayWrite c (a + k)

/-! ### The conditions of the errors (60_exceptions.md R134 to R141) -/

/-- The window of `w` by `h` pixels at (DX, DY) exceeds the extent (R137). -/
abbrev OutsidePanel (s : State) (w h : Nat) : Prop :=
  s.extW < s.dx.toNat + w - 1 ∨ s.extH < s.dy.toNat + h - 1

/-- The region is not inside the source image (R138). -/
abbrev OutsideSource (s : State) : Prop :=
  s.sw.toNat < s.rx.toNat + s.rwd.toNat ∨ s.sh.toNat < s.ry.toNat + s.rht.toNat

/-- The source index PICS samples for destination pixel (xx, yy) (41_staged_blit.md R97). -/
abbrev sampleIndex (s : State) (xx yy : Nat) : Nat :=
  yy * s.sh.toNat / s.dh.toNat * s.sw.toNat + xx * s.sw.toNat / s.dw.toNat

/-- The first byte of a line of ROI (42_roi.md R111). -/
abbrev roiByte (s : State) (line : Nat) : Nat :=
  s.src.toNat + s.sw.toNat * 2 * (s.ry.toNat + line) + 2 * s.rx.toNat

/-- The first byte of a line of GRAYROI (42_roi.md R114). -/
abbrev grayRoiByte (s : State) (line : Nat) : Nat := s.src.toNat + s.sw.toNat * (s.ry.toNat + line) + s.rx.toNat

/-- Byte `b` of row `row` of the source of CPYBLK (43_copy.md R121). -/
abbrev copyFrom (s : State) (row b : Nat) : Nat := s.src.toNat + s.sstr.toNat * 2 * row + b

/-- Byte `b` of row `row` of the destination of CPYBLK (R121). -/
abbrev copyTo (s : State) (row b : Nat) : Nat :=
  s.dst.toNat + s.dstr.toNat * 2 * (s.dy.toNat + row) + s.dx.toNat * 2 + b

/-- PICS samples a byte the engine may not read (R96, R58). -/
abbrev PicsUnreadable (s : State) : Prop :=
  ∃ yy, yy < s.dh.toNat ∧ ∃ xx, xx < s.dw.toNat ∧ Unreadable s.cfg (s.src.toNat + 2 * sampleIndex s xx yy) 2

/-- Some line of ROI has a byte the engine may not read (R112, R58). -/
abbrev RoiUnreadable (s : State) : Prop :=
  ∃ line, line < s.rht.toNat ∧ Unreadable s.cfg (roiByte s line) (2 * s.rwd.toNat)

/-- Some line of GRAYROI has, among the CAP bytes it reads, one the engine may not read (R115, R58). -/
abbrev GrayRoiUnreadable (s : State) : Prop :=
  ∃ line, line < s.rht.toNat ∧ Unreadable s.cfg (grayRoiByte s line) s.cfg.cap

/-- CPYBLK reads and writes one and the same byte, or two destination rows collide (R122). -/
abbrev CopyOverlaps (s : State) : Prop :=
  (∃ row, row < s.sh.toNat ∧ ∃ b, b < 2 * s.sw.toNat ∧ ∃ row', row' < s.sh.toNat ∧ ∃ b', b' < 2 * s.sw.toNat ∧
    copyFrom s row b = copyTo s row' b') ∨ (2 ≤ s.sh.toNat ∧ s.dstr.toNat < s.sw.toNat)

/-- CPYBLK reads a byte the engine may not read or writes one it may not write (R122). -/
abbrev CopyUnreachable (s : State) : Prop :=
  (∃ row, row < s.sh.toNat ∧ Unreadable s.cfg (copyFrom s row 0) (2 * s.sw.toNat)) ∨
    (∃ row, row < s.sh.toNat ∧ Unwritable s.cfg (copyTo s row 0) (2 * s.sw.toNat))

/-! ### The operands a command runs on -/

/-- No check of PIC fails (R91). -/
abbrev PicReady (s : State) : Prop :=
  ¬(s.dw = 0 ∨ s.dh = 0) ∧ s.dw.toNat * s.dh.toNat ≤ s.cfg.cap ∧ ¬OutsidePanel s s.dw.toNat s.dh.toNat ∧
    s.src.toNat % 2 = 0 ∧ ¬Unreadable s.cfg s.src.toNat (2 * s.cfg.cap)

/-- No check of PICS fails (R96). -/
abbrev PicsReady (s : State) : Prop :=
  ¬(s.dw = 0 ∨ s.dh = 0 ∨ s.sw = 0 ∨ s.sh = 0) ∧ s.dw.toNat % 2 = 0 ∧ s.dw.toNat * s.dh.toNat ≤ s.cfg.cap ∧
    ¬OutsidePanel s s.dw.toNat s.dh.toNat ∧ s.src.toNat % 2 = 0 ∧ ¬PicsUnreadable s

/-- No check of GRAY fails (R101). -/
abbrev GrayReady (s : State) : Prop :=
  ¬(s.dw = 0 ∨ s.dh = 0) ∧ s.dw.toNat * s.dh.toNat ≤ s.cfg.cap ∧ ¬OutsidePanel s s.dw.toNat s.dh.toNat ∧
    ¬Unreadable s.cfg s.src.toNat s.cfg.cap

/-- No check of ROI fails (R112). -/
abbrev RoiReady (s : State) : Prop :=
  ¬(s.rwd = 0 ∨ s.rht = 0) ∧ ¬OutsidePanel s s.rwd.toNat s.rht.toNat ∧ ¬OutsideSource s ∧ ¬RoiUnreadable s

/-- No check of GRAYROI fails (R115). -/
abbrev GrayRoiReady (s : State) : Prop :=
  ¬(s.rwd = 0 ∨ s.rht = 0) ∧ s.rwd.toNat ≤ s.cfg.cap ∧ ¬OutsidePanel s s.rwd.toNat s.rht.toNat ∧ ¬OutsideSource s ∧
    ¬GrayRoiUnreadable s

/-- No check of CPYBLK fails (R122). -/
abbrev CopyReady (s : State) : Prop := ¬(s.sw = 0 ∨ s.sh = 0) ∧ ¬CopyOverlaps s ∧ ¬CopyUnreachable s

/-! ### The values the rules give -/

/-- The byte-swapped pixel at `a`: "(Mem[a] << 8) | Mem[a+1]" (20_memory.md R45). -/
def swappedPixel (m : Memory) (a : Nat) : Half := Memory.read m a ++ Memory.read m (a + 1)

/-- GRAYRAMP at a quarter of the sample, rounded down (40_scalar.md R83). -/
def grayColour (c : Config) (v : Byte) : Half := c.grayRamp[v.toNat / 4]'(by have := v.isLt; omega)

/-- Slot `j` of STAGE after PIC: "STAGE[j] = swap16(P(j ^ 1))" (41_staged_blit.md R105). -/
def picSlot (s : State) (j : Nat) : Half := swappedPixel s.mem (s.src.toNat + 2 * (j ^^^ 1))

/-- Slot `j` of STAGE after PICS: "STAGE[yy*DW + xx] = swap16(Sample(xx ^ 1, yy))" (R105). -/
def picsSlot (s : State) (j : Nat) : Half :=
  swappedPixel s.mem (s.src.toNat + 2 * sampleIndex s ((j % s.dw.toNat) ^^^ 1) (j / s.dw.toNat))

/-- Slot `j` of STAGE after StageGray(a): "STAGE[j] = gray565(B(j ^ 1))" (R105). -/
def graySlot (s : State) (a j : Nat) : Half := grayColour s.cfg (Memory.read s.mem (a + (j ^^^ 1)))

/-- The window of `w` by `h` pixels whose first pixel is (x, y), corners inclusive (R93). -/
def windowOf (x y w h : Nat) : Event :=
  .window (BitVec.ofNat 16 x) (BitVec.ofNat 16 y) (BitVec.ofNat 16 (x + w - 1)) (BitVec.ofNat 16 (y + h - 1))

/-- The bits of a register that a host write stores (30_encoding.md R61, the width column; read-only registers store none). -/
def storedBits : Reg → Word
  | .CMD => 0
  | .STATUS => 0
  | .ORIENT => 0xFF
  | .EXTENT => 0
  | .SRC => 0xFFFFFFFF
  | .DST => 0xFFFFFFFF
  | .RES => 0
  | .DX | .DY | .DW | .DH | .SW | .SH | .RX | .RY | .RWD | .RHT | .SSTR | .DSTR | .ARG => 0xFFFF

/-- The operand registers the host writes: DX to ARG of 10_state.md R11. -/
def isOperand : Reg → Bool
  | .CMD | .STATUS | .ORIENT | .EXTENT | .RES => false
  | .DX | .DY | .DW | .DH | .SW | .SH | .RX | .RY | .RWD | .RHT | .SRC | .DST | .SSTR | .DSTR | .ARG => true

/-! ### The output log (10_state.md R26) -/

/-- The number of pixels of a window with inclusive corners. -/
def windowArea (x1 y1 x2 y2 : Half) : Nat := (x2.toNat + 1 - x1.toNat) * (y2.toNat + 1 - y1.toNat)

/-- Every data event stands immediately after a window, every window before its data, and the data fills the window: as many
slots as the window has pixels, or twice as many bytes. -/
def logPaired : List Event → Bool
  | [] => true
  | .orient _ :: rest => logPaired rest
  | .window x1 y1 x2 y2 :: .data16 slots :: rest =>
    decide (x1 ≤ x2) && decide (y1 ≤ y2) && slots.length == windowArea x1 y1 x2 y2 && logPaired rest
  | .window x1 y1 x2 y2 :: .data8 bytes :: rest =>
    decide (x1 ≤ x2) && decide (y1 ≤ y2) && bytes.length == 2 * windowArea x1 y1 x2 y2 && logPaired rest
  | .window _ _ _ _ :: _ => false
  | .data16 _ :: _ => false
  | .data8 _ :: _ => false

/-! ### The invariant, and runs -/

/-- What every step keeps: a valid configuration (00_scope.md R4), CAP slots in STAGE (10_state.md R21), host memory in canonical
form, no reserved error code (60_exceptions.md R130), and a paired output log (R26). -/
abbrev Inv (s : State) : Prop :=
  s.cfg.Valid ∧ s.stage.length = s.cfg.cap ∧ Memory.wf s.mem ∧ s.code ≤ 9 ∧ logPaired s.out = true

/-- `n` steps, stopping at the first fault or refusal: a run (70_reset_and_hazards.md R163). -/
def runSteps : Nat → State → Host.Outcome State Fault Refusal
  | 0, s => .next s
  | n + 1, s =>
    match step s with
    | .next t => runSteps n t
    | .fault r => .fault r
    | .refused r => .refused r

/-- `f` applied to the next state of an outcome; a fault or a refusal stays. -/
def mapNext (f : State → State) : Host.Outcome State Fault Refusal → Host.Outcome State Fault Refusal
  | .next s => .next (f s)
  | .fault r => .fault r
  | .refused r => .refused r

/-- Two outcomes are the same but for the contents of STAGE. -/
def SameButStage : Host.Outcome State Fault Refusal → Host.Outcome State Fault Refusal → Prop
  | .next t, .next u => u = { t with stage := u.stage }
  | .fault r, .fault r' => r = r'
  | .refused r, .refused r' => r = r'
  | _, _ => False

/-- A host access the machine performs: a step of the host (30_encoding.md R62a), and no byte access to the register block. -/
abbrev Performable (c : Config) : HostAccess → Prop
  | .store a v => (HostAccess.store a v).wf = true ∧ ¬(c.regBase.toNat ≤ a ∧ a < c.regBase.toNat + 256)
  | .load a => (HostAccess.load a).wf = true ∧ ¬(c.regBase.toNat ≤ a ∧ a < c.regBase.toNat + 256)
  | .write off w v => (HostAccess.write off w v).wf = true
  | .read off w => (HostAccess.read off w).wf = true
  | .reset => True

end Sys2Proof.Safety
end

