-- ==== Sys2Proof/Certificates/Slice0/Obligations.lean ====
section
/-! DEFINITION. The statements about the machine, each with the rule of spec/ it formalises. -/

open Sys2Proof Sys2Proof.Machine Sys2Proof.Safety

/-! ### Encoding -/

/-- R64: each command is encoded by its row's word, and no other word decodes to it; decoding what the encoder writes gives every
command back. -/
def Obligations.EachCommandHasOneWord : Prop :=
  (∀ i : Instr, i.wf = true → decodeWord (encode i) = .ok i) ∧
  ∀ (w : Word) (i : Instr), decodeWord w = .ok i ↔ w.toNat = match i with
    | .pic => 0x01
    | .pics => 0x02
    | .roi => 0x03
    | .gray => 0x04
    | .grayroi => 0x05
    | .cpyblk => 0x06
    | .swap16 => 0x07
    | .glut => 0x08

/-- R64: the words of the opcode map, written out, decode to their commands, and words beside them to none. -/
def Obligations.OpcodeMapWords : Prop :=
  decodeWord 0b00000000000000000000000000000001#32 = .ok .pic ∧
  decodeWord 0b00000000000000000000000000000010#32 = .ok .pics ∧
  decodeWord 0b00000000000000000000000000000011#32 = .ok .roi ∧
  decodeWord 0b00000000000000000000000000000100#32 = .ok .gray ∧
  decodeWord 0b00000000000000000000000000000101#32 = .ok .grayroi ∧
  decodeWord 0b00000000000000000000000000000110#32 = .ok .cpyblk ∧
  decodeWord 0b00000000000000000000000000000111#32 = .ok .swap16 ∧
  decodeWord 0b00000000000000000000000000001000#32 = .ok .glut ∧
  decodeWord 0#32 = .error .unassignedOp ∧
  decodeWord 9#32 = .error .unassignedOp ∧
  decodeWord 0x107#32 = .error .zeroFieldSet

/-- R61: a register is found at its offset, and an aligned offset of the block either is a register's or is reserved. -/
def Obligations.RegisterMapRoundTrip : Prop :=
  (∀ r : Reg, Reg.ofOffset r.offset = some r) ∧
  (∀ (off : Nat) (r : Reg), Reg.ofOffset off = some r → off = r.offset) ∧
  (∀ off, 0x50 ≤ off → Reg.ofOffset off = none)

/-! ### The step -/

/-- R14, R62e: when the next access writes the word of a command to CMD, the step is that command at the state with the access
taken from the queue, whole, before any later access. -/
def Obligations.StepRunsDecodedCommand : Prop :=
  ∀ (s : State) (w : Word) (i : Instr) (rest : List HostAccess),
    s.pending = .write 0x00 .w32 w :: rest → decodeWord w = .ok i →
    step s = exec i { s with pending := rest }

/-- The same for a command word placed where the machine takes its next command (log 2). -/
def Obligations.FetchWordRunsCommand : Prop :=
  ∀ (s : State) (i : Instr), i.wf = true → step (s.withFetchWord 32 (encode i).toNat) = exec i s

/-- R65, R133: any word but the eight written to CMD ends with E_OP, sets STICKY, and does nothing else. -/
def Obligations.IllegalWordEndsWithEOp : Prop :=
  ∀ (s : State) (w : Word) (rest : List HostAccess), s.pending = .write 0x00 .w32 w :: rest →
    (w.toNat = 0 ∨ 8 < w.toNat) →
    step s = .next { s with pending := rest, code := 1, sticky := true }

/-- R163, R147: with no access left the engine is idle and keeps all its state (log 2). -/
def Obligations.IdleKeepsAllState : Prop :=
  ∀ s : State, s.pending = [] → step s = .next s

/-- R163: a run over accesses the machine performs takes them all, one a step, and is then idle. The
queue (log 2) and which byte accesses the machine performs (log 8) are the model's. -/
def Obligations.RunEndsWithQueueEmpty : Prop :=
  ∀ s : State, (∀ a ∈ s.pending, Performable s.cfg a) →
    ∃ t, runSteps s.pending.length s = .next t ∧ t.pending = []

/-- R163, R131: every command terminates in a next state, whatever the state it starts from. -/
def Obligations.EveryCommandEnds : Prop :=
  ∀ (i : Instr) (s : State), ∃ t, exec i s = .next t

/-! ### The registers as the host sees them -/

/-- R62d, R62e: a 32-bit read at an aligned offset of the block answers the register there, 0 at CMD and at a reserved offset, and
changes nothing but the queue and the host's own record. -/
def Obligations.RegisterReadHasNoSideEffect : Prop :=
  ∀ (s : State) (off : Nat) (rest : List HostAccess), s.pending = .read off .w32 :: rest → off % 4 = 0 → off < 0x100 →
    ∃ v : Word, step s = .next { s with pending := rest, replies := s.replies ++ [.reg v] } ∧
      (off = 0x00 → v = 0) ∧ (0x50 ≤ off → v = 0) ∧
      (off = 0x04 → v = BitVec.ofNat 32 (s.code.toNat + if s.sticky then 256 else 0)) ∧
      (off = 0x08 → v = BitVec.ofNat 32 s.orient.toNat) ∧
      (off = 0x0C → v = BitVec.ofNat 32 (s.extW % 65536 + 65536 * (s.extH % 65536))) ∧
      (off = 0x10 → v.toNat = s.dx.toNat) ∧ (off = 0x14 → v.toNat = s.dy.toNat) ∧
      (off = 0x18 → v.toNat = s.dw.toNat) ∧ (off = 0x1C → v.toNat = s.dh.toNat) ∧
      (off = 0x20 → v.toNat = s.sw.toNat) ∧ (off = 0x24 → v.toNat = s.sh.toNat) ∧
      (off = 0x28 → v.toNat = s.rx.toNat) ∧ (off = 0x2C → v.toNat = s.ry.toNat) ∧
      (off = 0x30 → v.toNat = s.rwd.toNat) ∧ (off = 0x34 → v.toNat = s.rht.toNat) ∧
      (off = 0x38 → v = s.src) ∧ (off = 0x3C → v = s.dst) ∧
      (off = 0x40 → v.toNat = s.sstr.toNat) ∧ (off = 0x44 → v.toNat = s.dstr.toNat) ∧
      (off = 0x48 → v.toNat = s.arg.toNat) ∧ (off = 0x4C → v.toNat = s.res.toNat)

/-- R11, R62b: an operand register or ORIENT, written and then read, answers the low bits it holds, the rest dropped. -/
def Obligations.RegisterHoldsItsLowBits : Prop :=
  ∀ (s : State) (r : Reg) (v : Word) (rest : List HostAccess), (isOperand r = true ∨ r = .ORIENT) →
    s.pending = wr r v :: rd r :: rest →
    ∃ t, runSteps 2 s = .next t ∧ t.pending = rest ∧ t.replies = s.replies ++ [.reg (v &&& storedBits r)]

/-- R11: "There are no aliases": a write to an operand register changes no other register of the block, and nothing else. -/
def Obligations.OperandWriteHasNoAlias : Prop :=
  ∀ (s : State) (r : Reg) (v : Word) (rest : List HostAccess), isOperand r = true → s.pending = wr r v :: rest →
    ∃ t, step s = .next t ∧ (∀ r' : Reg, r' ≠ r → t.readReg r' = s.readReg r') ∧ t.readReg r = v &&& storedBits r ∧
      t.stage = s.stage ∧ t.out = s.out ∧ t.mem = s.mem ∧ t.cfg = s.cfg ∧ t.replies = s.replies ∧ t.pending = rest ∧
      t.resets = s.resets

/-- R12, R17, R62c: a write to EXTENT, RES or a reserved offset is ignored without error. -/
def Obligations.ReadOnlyWriteIgnored : Prop :=
  ∀ (s : State) (off : Nat) (v : Word) (rest : List HostAccess), s.pending = .write off .w32 v :: rest →
    off % 4 = 0 → off < 0x100 → (off = 0x0C ∨ 0x4C ≤ off) →
    step s = .next { s with pending := rest }

/-- R15: a write to STATUS clears STICKY when bit 8 of the word is 1, changes nothing when it is 0, and never changes CODE. -/
def Obligations.StatusWriteClearsSticky : Prop :=
  ∀ (s : State) (v : Word) (rest : List HostAccess), s.pending = .write 0x04 .w32 v :: rest →
    step s = .next { s with pending := rest, sticky := if v.toNat / 256 % 2 = 1 then false else s.sticky }

/-- R16: a write to ORIENT stores the low byte, then appends one Orient event; it always succeeds and touches nothing else, STATUS
included. The register reads back the byte stored. -/
def Obligations.OrientWriteEmits : Prop :=
  ∀ (s : State) (v : Word) (rest : List HostAccess), s.pending = .write 0x08 .w32 v :: rest →
    ∃ t, step s = .next t ∧ (t.readReg .ORIENT).toNat = v.toNat % 256 ∧
      t = { s with
        pending := rest
        orient := BitVec.ofNat 8 v.toNat
        out := s.out ++ [.orient (BitVec.ofNat 8 v.toNat)] }

/-- R17: for every value of ORIENT the extent is (Y_MAX - 1, X_MAX - 1) if the axis-swap bit is set and (X_MAX - 1, Y_MAX - 1) if
not, EXTENT reads them in its two halves, and a host write to EXTENT is ignored. -/
def Obligations.ExtentFollowsOrientation : Prop :=
  ∀ s : State, s.cfg.Valid → ∀ b : Fin 8, s.cfg.axisSwapMask = 1#8 <<< b.val →
    (s.orient.getLsbD b.val = true → s.extW = s.cfg.yMax - 1 ∧ s.extH = s.cfg.xMax - 1) ∧
    (s.orient.getLsbD b.val = false → s.extW = s.cfg.xMax - 1 ∧ s.extH = s.cfg.yMax - 1) ∧
    ((s.readReg .EXTENT).extractLsb' 0 16).toNat = s.extW ∧ ((s.readReg .EXTENT).extractLsb' 16 16).toNat = s.extH ∧
    ∀ (v : Word) (rest : List HostAccess), s.pending = .write 0x0C .w32 v :: rest →
      step s = .next { s with pending := rest }

/-- R62a: a register access that is narrow, misaligned or outside the block is no step of the host: the model refuses it (log 10). -/
def Obligations.OtherRegisterAccessRefused : Prop :=
  ∀ (s : State) (off : Nat) (width : AccessWidth) (v : Word) (rest : List HostAccess),
    (s.pending = .write off width v :: rest ∨ s.pending = .read off width :: rest) →
    (0x100 ≤ off → step s = .refused .outsideBlock) ∧
    (off < 0x100 → width ≠ .w32 → step s = .refused .narrowAccess) ∧
    (off < 0x100 → width = .w32 → off % 4 ≠ 0 → step s = .refused .misalignedOffset)

/-! ### The host's own memory and reset -/

/-- R53, R40: a byte the host stores is the byte it loads next, every other byte of memory stays, and memory keeps its canonical
form; above 0xFFFFFFFF there is no memory (log 8, log 9). -/
def Obligations.HostStoreThenLoad : Prop :=
  ∀ (s : State) (a : Nat) (v : Byte) (rest : List HostAccess), s.pending = .store a v :: .load a :: rest →
    Memory.wf s.mem →
    (2 ^ 32 ≤ a → step s = .fault .noSuchAddress) ∧
    (a < 2 ^ 32 → ¬(s.cfg.regBase.toNat ≤ a ∧ a < s.cfg.regBase.toNat + 256) →
      ∃ m, runSteps 2 s = .next { s with pending := rest, mem := m, replies := s.replies ++ [.byte v] } ∧
        Memory.wf m ∧ Memory.read m a = v ∧ ∀ k, k ≠ a → Memory.read m k = Memory.read s.mem k)

/-- R29: the state after reset, for every valid configuration: every register reads 0, STATUS and ORIENT included, OUT is empty,
STAGE has CAP slots of which nothing is said, the extent is unswapped, and a blit or copy command issued then fails with E_ZERO
and has no effect. The first clause, that the model's reset state has the platform's configuration and that it is a valid one, is
the model's choice (log 1) and no rule of the spec. -/
def Obligations.ResetValues : Prop :=
  (State.reset = State.resetOf Config.platform ∧ Config.platform.Valid) ∧
  ∀ c : Config, c.Valid →
    (∀ r : Reg, r ≠ .EXTENT → (State.resetOf c).readReg r = 0) ∧ (State.resetOf c).out = [] ∧
    (State.resetOf c).stage.length = c.xMax * c.yMax ∧ (State.resetOf c).cfg = c ∧
    (State.resetOf c).extW = c.xMax - 1 ∧ (State.resetOf c).extH = c.yMax - 1 ∧
    ∀ i : Instr, i ≠ .swap16 → i ≠ .glut →
      step ((State.resetOf c).withFetchWord 32 (encode i).toNat) = .next { State.resetOf c with code := 2, sticky := true }

/-- R150, R151: a reset while the machine runs puts every register at its reset value, keeps host memory, and emits no event; that
OUT is kept is the model's choice (log 6). -/
def Obligations.HostResetKeepsMemory : Prop :=
  ∀ (s : State) (rest : List HostAccess), s.cfg.Valid → s.pending = .reset :: rest →
    ∃ t, step s = .next t ∧ (∀ r : Reg, r ≠ .EXTENT → t.readReg r = 0) ∧ t.extW = s.cfg.xMax - 1 ∧
      t.extH = s.cfg.yMax - 1 ∧ t.mem = s.mem ∧ t.out = s.out ∧ t.cfg = s.cfg ∧ t.pending = rest ∧
      t.replies = s.replies ∧ t.stage.length = s.cfg.cap

/-! ### The datapath functions and the scalar commands -/

/-- R80, R81: `swap16` exchanges the two bytes, is its own inverse and a bijection, and fixes exactly the values whose bytes are
equal. -/
def Obligations.SwapLaws : Prop :=
  Function.Bijective swap16 ∧
  ∀ v : Half, (swap16 v).extractLsb' 8 8 = v.extractLsb' 0 8 ∧ (swap16 v).extractLsb' 0 8 = v.extractLsb' 8 8 ∧
    swap16 (swap16 v) = v ∧ (swap16 v = v ↔ v.extractLsb' 8 8 = v.extractLsb' 0 8)

/-- R82: SWAP16, from every state, puts the two bytes of ARG exchanged into RES, CODE is OK, and nothing else changes. -/
def Obligations.Swap16Result : Prop :=
  decodeWord 0x00000007#32 = .ok .swap16 ∧
  ∀ s : State, exec .swap16 s =
    .next { s with res := BitVec.ofNat 16 (s.arg.toNat % 256 * 256 + s.arg.toNat / 256), code := 0 }

/-- R83, R84: GLUT, from every state, puts the table entry of a quarter of ARG's low byte into RES, CODE is OK, and nothing else
changes. -/
def Obligations.GlutResult : Prop :=
  decodeWord 0x00000008#32 = .ok .glut ∧
  ∀ s : State, exec .glut s = .next { s with res := s.cfg.grayRamp[s.arg.toNat % 256 / 4]'(by omega), code := 0 }

/-- R72: the pseudo-instructions `swap16(v)` and `grayRamp(v)` answer the swapped value and the table entry of `v`. -/
def Obligations.ScalarCallsAnswer : Prop :=
  ∀ (s : State) (v : Word) (rest : List HostAccess),
    (s.pending = callAccesses (.swap16 v) ++ rest →
      ∃ t, runSteps 3 s = .next t ∧ t.pending = rest ∧
        t.replies = s.replies ++ [.reg (BitVec.ofNat 32 (v.toNat % 256 * 256 + v.toNat / 256 % 256))]) ∧
    (s.pending = callAccesses (.grayRamp v) ++ rest →
      ∃ t, runSteps 3 s = .next t ∧ t.pending = rest ∧
        t.replies = s.replies ++ [.reg ((grayColour s.cfg (BitVec.ofNat 8 v.toNat)).setWidth 32)])

/-- R72: a blit or copy call is its command on the registers its parameters were written to. -/
def Obligations.CallsProgramTheirRegisters : Prop :=
  ∀ (s : State) (rest : List HostAccess) (a b c d e f g h k : Word),
    (s.pending = callAccesses (.drawPicture a b c d e) ++ rest → runSteps 6 s = exec .pic { s with
      dx := a.setWidth 16, dy := b.setWidth 16, dw := c.setWidth 16, dh := d.setWidth 16, src := e, pending := rest }) ∧
    (s.pending = callAccesses (.drawPictureScaled a b c d e f g) ++ rest → runSteps 8 s = exec .pics { s with
      dx := a.setWidth 16, dy := b.setWidth 16, dw := c.setWidth 16, dh := d.setWidth 16, sw := e.setWidth 16,
      sh := f.setWidth 16, src := g, pending := rest }) ∧
    (s.pending = callAccesses (.drawPictureRegionOfInterest a b c d e f g h k) ++ rest →
      runSteps 10 s = exec .roi { s with
        dx := a.setWidth 16, dy := b.setWidth 16, sw := c.setWidth 16, sh := d.setWidth 16, rx := e.setWidth 16,
        ry := f.setWidth 16, rwd := g.setWidth 16, rht := h.setWidth 16, src := k, pending := rest }) ∧
    (s.pending = callAccesses (.drawGrayscale a b c d e) ++ rest → runSteps 6 s = exec .gray { s with
      dx := a.setWidth 16, dy := b.setWidth 16, dw := c.setWidth 16, dh := d.setWidth 16, src := e, pending := rest }) ∧
    (s.pending = callAccesses (.drawGrayscaleRegionOfInterest a b c d e f g h k) ++ rest →
      runSteps 10 s = exec .grayroi { s with
        dx := a.setWidth 16, dy := b.setWidth 16, sw := c.setWidth 16, sh := d.setWidth 16, rx := e.setWidth 16,
        ry := f.setWidth 16, rwd := g.setWidth 16, rht := h.setWidth 16, src := k, pending := rest }) ∧
    (s.pending = callAccesses (.copyRawBlock a b c d e f g h) ++ rest → runSteps 9 s = exec .cpyblk { s with
      dst := a, dstr := b.setWidth 16, src := c, sstr := d.setWidth 16, sw := e.setWidth 16, sh := f.setWidth 16,
      dx := g.setWidth 16, dy := h.setWidth 16, pending := rest })

/-! ### The blit and copy commands: result and frame. The next state is written as the old one with the fields that change, so
every other register, STAGE, OUT, host memory and STICKY stay. -/

/-- R92, R93, R105: PIC on operands that pass its checks remaps CAP pixels into STAGE, pairs exchanged and bytes swapped, and
streams the first DW*DH slots into its window; nothing else changes. -/
def Obligations.PicResult : Prop :=
  ∀ s : State, s.cfg.Valid → s.stage.length = s.cfg.cap → PicReady s →
    exec .pic s = .next { s with
      stage := (List.range s.cfg.cap).map (picSlot s)
      out := s.out ++ [windowOf s.dx.toNat s.dy.toNat s.dw.toNat s.dh.toNat,
        .data16 ((List.range (s.dw.toNat * s.dh.toNat)).map (picSlot s))]
      code := 0 }

/-- R97, R98, R105: PICS on operands that pass its checks resamples into the first DW*DH slots of STAGE, the other slots keep
their values, and streams them into its window; nothing else changes. -/
def Obligations.PicsResult : Prop :=
  ∀ s : State, s.cfg.Valid → s.stage.length = s.cfg.cap → PicsReady s →
    exec .pics s = .next { s with
      stage := (List.range (s.dw.toNat * s.dh.toNat)).map (picsSlot s) ++ s.stage.drop (s.dw.toNat * s.dh.toNat)
      out := s.out ++ [windowOf s.dx.toNat s.dy.toNat s.dw.toNat s.dh.toNat,
        .data16 ((List.range (s.dw.toNat * s.dh.toNat)).map (picsSlot s))]
      code := 0 }

/-- R102, R103, R105: GRAY on operands that pass its checks looks CAP samples up into STAGE, pairs exchanged, and streams the
first DW*DH slots into its window; nothing else changes. -/
def Obligations.GrayResult : Prop :=
  ∀ s : State, s.cfg.Valid → s.stage.length = s.cfg.cap → GrayReady s →
    exec .gray s = .next { s with
      stage := (List.range s.cfg.cap).map (graySlot s s.src.toNat)
      out := s.out ++ [windowOf s.dx.toNat s.dy.toNat s.dw.toNat s.dh.toNat,
        .data16 ((List.range (s.dw.toNat * s.dh.toNat)).map (graySlot s s.src.toNat))]
      code := 0 }

/-- R111: ROI on operands that pass its checks emits, line by line from the first, a window one line high and the 2*RWD source
bytes of the line unswapped; nothing else changes, STAGE included. -/
def Obligations.RoiResult : Prop :=
  ∀ s : State, RoiReady s →
    exec .roi s = .next { s with
      out := s.out ++ (List.range s.rht.toNat).flatMap fun line =>
        [windowOf s.dx.toNat (s.dy.toNat + line) s.rwd.toNat 1,
          .data8 ((List.range (2 * s.rwd.toNat)).map fun k => Memory.read s.mem (roiByte s line + k))]
      code := 0 }

/-- R114, R105: GRAYROI on operands that pass its checks emits, line by line, a window one line high and RWD slots looked up from
the line's samples, pairs exchanged; STAGE ends with the remap of CAP samples of the last line; nothing else changes. -/
def Obligations.GrayRoiResult : Prop :=
  ∀ s : State, s.cfg.Valid → s.stage.length = s.cfg.cap → GrayRoiReady s →
    exec .grayroi s = .next { s with
      stage := (List.range s.cfg.cap).map (graySlot s (grayRoiByte s (s.rht.toNat - 1)))
      out := s.out ++ (List.range s.rht.toNat).flatMap fun line =>
        [windowOf s.dx.toNat (s.dy.toNat + line) s.rwd.toNat 1,
          .data16 ((List.range s.rwd.toNat).map (graySlot s (grayRoiByte s line)))]
      code := 0 }

/-- R121: CPYBLK on operands that pass its checks copies every byte of the block to its place, reading memory as it was before the
command; every other byte of memory, and everything else, is unchanged. -/
def Obligations.CpyblkResult : Prop :=
  ∀ s : State, Memory.wf s.mem → CopyReady s →
    ∃ m, exec .cpyblk s = .next { s with mem := m, code := 0 } ∧
      (∀ row, row < s.sh.toNat → ∀ b, b < 2 * s.sw.toNat →
        Memory.read m (copyTo s row b) = Memory.read s.mem (copyFrom s row b)) ∧
      (∀ a, (∀ row, row < s.sh.toNat → ∀ b, b < 2 * s.sw.toNat → a ≠ copyTo s row b) →
        Memory.read m a = Memory.read s.mem a)

/-! ### Where the commands end in an error: the first failing check, and no other effect -/

/-- R91: the checks of PIC, in order. -/
def Obligations.PicErrors : Prop :=
  ∀ s : State,
    let zero := s.dw = 0 ∨ s.dh = 0
    let cap := s.cfg.cap < s.dw.toNat * s.dh.toNat
    let coord := OutsidePanel s s.dw.toNat s.dh.toNat
    let align := s.src.toNat % 2 = 1
    let bus := Unreadable s.cfg s.src.toNat (2 * s.cfg.cap)
    (zero → exec .pic s = .next { s with code := 2, sticky := true }) ∧
    (¬zero → cap → exec .pic s = .next { s with code := 4, sticky := true }) ∧
    (¬zero → ¬cap → coord → exec .pic s = .next { s with code := 5, sticky := true }) ∧
    (¬zero → ¬cap → ¬coord → align → exec .pic s = .next { s with code := 7, sticky := true }) ∧
    (¬zero → ¬cap → ¬coord → ¬align → bus → exec .pic s = .next { s with code := 9, sticky := true })

/-- R96: the checks of PICS, in order. -/
def Obligations.PicsErrors : Prop :=
  ∀ s : State,
    let zero := s.dw = 0 ∨ s.dh = 0 ∨ s.sw = 0 ∨ s.sh = 0
    let odd := s.dw.toNat % 2 = 1
    let cap := s.cfg.cap < s.dw.toNat * s.dh.toNat
    let coord := OutsidePanel s s.dw.toNat s.dh.toNat
    let align := s.src.toNat % 2 = 1
    (zero → exec .pics s = .next { s with code := 2, sticky := true }) ∧
    (¬zero → odd → exec .pics s = .next { s with code := 3, sticky := true }) ∧
    (¬zero → ¬odd → cap → exec .pics s = .next { s with code := 4, sticky := true }) ∧
    (¬zero → ¬odd → ¬cap → coord → exec .pics s = .next { s with code := 5, sticky := true }) ∧
    (¬zero → ¬odd → ¬cap → ¬coord → align → exec .pics s = .next { s with code := 7, sticky := true }) ∧
    (¬zero → ¬odd → ¬cap → ¬coord → ¬align → PicsUnreadable s →
      exec .pics s = .next { s with code := 9, sticky := true })

/-- R101: the checks of GRAY, in order. -/
def Obligations.GrayErrors : Prop :=
  ∀ s : State,
    let zero := s.dw = 0 ∨ s.dh = 0
    let cap := s.cfg.cap < s.dw.toNat * s.dh.toNat
    let coord := OutsidePanel s s.dw.toNat s.dh.toNat
    (zero → exec .gray s = .next { s with code := 2, sticky := true }) ∧
    (¬zero → cap → exec .gray s = .next { s with code := 4, sticky := true }) ∧
    (¬zero → ¬cap → coord → exec .gray s = .next { s with code := 5, sticky := true }) ∧
    (¬zero → ¬cap → ¬coord → Unreadable s.cfg s.src.toNat s.cfg.cap →
      exec .gray s = .next { s with code := 9, sticky := true })

/-- R112: the checks of ROI, in order. -/
def Obligations.RoiErrors : Prop :=
  ∀ s : State,
    let zero := s.rwd = 0 ∨ s.rht = 0
    let coord := OutsidePanel s s.rwd.toNat s.rht.toNat
    (zero → exec .roi s = .next { s with code := 2, sticky := true }) ∧
    (¬zero → coord → exec .roi s = .next { s with code := 5, sticky := true }) ∧
    (¬zero → ¬coord → OutsideSource s → exec .roi s = .next { s with code := 6, sticky := true }) ∧
    (¬zero → ¬coord → ¬OutsideSource s → RoiUnreadable s → exec .roi s = .next { s with code := 9, sticky := true })

/-- R115: the checks of GRAYROI, in order, all before the first line. -/
def Obligations.GrayRoiErrors : Prop :=
  ∀ s : State,
    let zero := s.rwd = 0 ∨ s.rht = 0
    let cap := s.cfg.cap < s.rwd.toNat
    let coord := OutsidePanel s s.rwd.toNat s.rht.toNat
    (zero → exec .grayroi s = .next { s with code := 2, sticky := true }) ∧
    (¬zero → cap → exec .grayroi s = .next { s with code := 4, sticky := true }) ∧
    (¬zero → ¬cap → coord → exec .grayroi s = .next { s with code := 5, sticky := true }) ∧
    (¬zero → ¬cap → ¬coord → OutsideSource s → exec .grayroi s = .next { s with code := 6, sticky := true }) ∧
    (¬zero → ¬cap → ¬coord → ¬OutsideSource s → GrayRoiUnreadable s →
      exec .grayroi s = .next { s with code := 9, sticky := true })

/-- R122: the checks of CPYBLK, in order. -/
def Obligations.CpyblkErrors : Prop :=
  ∀ s : State,
    let zero := s.sw = 0 ∨ s.sh = 0
    (zero → exec .cpyblk s = .next { s with code := 2, sticky := true }) ∧
    (¬zero → CopyOverlaps s → exec .cpyblk s = .next { s with code := 8, sticky := true }) ∧
    (¬zero → ¬CopyOverlaps s → CopyUnreachable s → exec .cpyblk s = .next { s with code := 9, sticky := true })

/-- R107: a window inside the panel is no wider and no higher than the extent allows, the extent has as many pixels as STAGE has
slots under either orientation, and so the window never has more pixels than STAGE has slots. -/
def Obligations.WindowInsidePanelFitsStage : Prop :=
  ∀ s : State, s.cfg.Valid → (s.extW + 1) * (s.extH + 1) = s.cfg.cap ∧
    ∀ w h : Nat, 0 < w → 0 < h → ¬OutsidePanel s w h → w ≤ s.extW + 1 ∧ h ≤ s.extH + 1 ∧ w * h ≤ s.cfg.cap

/-- R99: PICS never over-reads. Every address of its read footprint lies in the SW by SH source, and so does every pixel its remap
samples, the first at index 0; and PICS does the same whatever host memory holds outside that source. -/
def Obligations.PicsSamplesInsideSource : Prop :=
  ∀ s : State, s.dw ≠ 0 → s.dh ≠ 0 → s.sw ≠ 0 → s.sh ≠ 0 →
    (∀ p ∈ s.readFootprint .pics,
      s.src.toNat ≤ p.start ∧ p.start + p.len ≤ s.src.toNat + 2 * (s.sw.toNat * s.sh.toNat)) ∧
    (∀ xx, xx < s.dw.toNat → ∀ yy, yy < s.dh.toNat → s.scaledIndex xx yy < s.sw.toNat * s.sh.toNat) ∧
    s.scaledIndex 0 0 = 0 ∧
    ∀ m : Memory,
      (∀ a, s.src.toNat ≤ a → a < s.src.toNat + 2 * (s.sw.toNat * s.sh.toNat) → Memory.read m a = Memory.read s.mem a) →
      exec .pics { s with mem := m } = mapNext (fun t => { t with mem := m }) (exec .pics s)

/-! ### Rules about the whole machine -/

/-- R131: a command either completes with CODE = OK and STICKY as it was, or changes CODE and STICKY alone. -/
def Obligations.CommandIsAllOrNothing : Prop :=
  ∀ (i : Instr) (s t : State), exec i s = .next t →
    (t.code = 0 ∧ t.sticky = s.sticky) ∨ (t.code ≠ 0 ∧ t = { s with code := t.code, sticky := true })

/-- R130: the codes each command can leave in CODE, and no other. -/
def Obligations.CodesOfEachCommand : Prop :=
  ∀ (i : Instr) (s t : State), exec i s = .next t → t.code.toNat ∈ match i with
    | .pic => [0, 2, 4, 5, 7, 9]
    | .pics => [0, 2, 3, 4, 5, 7, 9]
    | .gray => [0, 2, 4, 5, 9]
    | .roi => [0, 2, 5, 6, 9]
    | .grayroi => [0, 2, 4, 5, 6, 9]
    | .cpyblk => [0, 2, 8, 9]
    | .swap16 => [0]
    | .glut => [0]

/-- R11, R12, R21, R43, R23: no command writes an operand register, ORIENT or the parameters; only SWAP16 and GLUT write RES; only
the staged commands write STAGE; only CPYBLK writes host memory; CPYBLK, SWAP16 and GLUT emit nothing. -/
def Obligations.WhatNoCommandWrites : Prop :=
  ∀ (i : Instr) (s t : State), exec i s = .next t →
    (∀ r : Reg, isOperand r = true → t.readReg r = s.readReg r) ∧ t.orient = s.orient ∧ t.cfg = s.cfg ∧
    t.pending = s.pending ∧ t.replies = s.replies ∧ t.resets = s.resets ∧
    (i ≠ .swap16 → i ≠ .glut → t.res = s.res) ∧
    (i ≠ .pic → i ≠ .pics → i ≠ .gray → i ≠ .grayroi → t.stage = s.stage) ∧
    (i ≠ .cpyblk → t.mem = s.mem) ∧
    (i = .cpyblk ∨ i = .swap16 ∨ i = .glut → t.out = s.out)

/-- R48, R41: a command changes no byte of host memory that MEMMAP does not make Writable to the engine, and none of the register
block. -/
def Obligations.EngineWritesOnlyAdmittedBytes : Prop :=
  ∀ (i : Instr) (s t : State), exec i s = .next t → ∀ a, Memory.read t.mem a ≠ Memory.read s.mem a → MayWrite s.cfg a

/-- R10: each command ignores the operand registers it does not list: with others in them it does the same. -/
def Obligations.UnlistedRegistersIgnored : Prop :=
  ∀ (s : State) (a b c d e f g h k l m n : Half) (x y : Word),
    (let u : State → State := fun t =>
        { t with sw := a, sh := b, rx := c, ry := d, rwd := e, rht := f, dst := x, sstr := g, dstr := h, arg := k, res := l };
      exec .pic (u s) = mapNext u (exec .pic s) ∧ exec .gray (u s) = mapNext u (exec .gray s)) ∧
    (let u : State → State := fun t =>
        { t with rx := c, ry := d, rwd := e, rht := f, dst := x, sstr := g, dstr := h, arg := k, res := l };
      exec .pics (u s) = mapNext u (exec .pics s)) ∧
    (let u : State → State := fun t =>
        { t with dw := m, dh := n, dst := x, sstr := g, dstr := h, arg := k, res := l };
      exec .roi (u s) = mapNext u (exec .roi s) ∧ exec .grayroi (u s) = mapNext u (exec .grayroi s)) ∧
    (let u : State → State := fun t =>
        { t with dw := m, dh := n, rx := c, ry := d, rwd := e, rht := f, arg := k, res := l };
      exec .cpyblk (u s) = mapNext u (exec .cpyblk s)) ∧
    (let u : State → State := fun t =>
        { t with dx := m, dy := n, dw := k, dh := l, sw := a, sh := b, rx := c, ry := d, rwd := e, rht := f, src := y, dst := x, sstr := g, dstr := h };
      exec .swap16 (u s) = mapNext u (exec .swap16 s) ∧ exec .glut (u s) = mapNext u (exec .glut s))

/-- R15, R144: no command reads STATUS: whatever it holds, a command does the same, and a failing one sets STICKY. -/
def Obligations.NoCommandReadsStatus : Prop :=
  ∀ (i : Instr) (s : State) (c : Byte) (b : Bool),
    exec i { s with code := c, sticky := b } =
      mapNext (fun t => { t with sticky := b || decide (t.code ≠ 0) }) (exec i s)

/-- R22: what STAGE holds before a command is not observable: over any run, two states that differ in STAGE alone end alike but for
STAGE. -/
def Obligations.StageIsNotObservable : Prop :=
  ∀ (n : Nat) (s : State) (st : List Half), s.cfg.Valid →
    SameButStage (runSteps n s) (runSteps n { s with stage := st })

/-- R99: at identity scale PICS streams what PIC streams. -/
def Obligations.IdentityScaleIsPic : Prop :=
  ∀ s : State, s.cfg.Valid → PicReady s → PicsReady s → s.sw = s.dw → s.sh = s.dh →
    ∃ t u, exec .pic s = .next t ∧ exec .pics s = .next u ∧ t.out = u.out

/-- R116: GRAYROI with RHT = 1 is GRAY with DW = RWD, DH = 1 and SRC the line's address. -/
def Obligations.OneLineGrayRoiIsGray : Prop :=
  ∀ s : State, s.rht = 1 → ¬OutsideSource s → grayRoiByte s 0 < 2 ^ 32 →
    exec .grayroi s = mapNext (fun t => { t with dw := s.dw, dh := s.dh, src := s.src })
      (exec .gray { s with dw := s.rwd, dh := 1, src := BitVec.ofNat 32 (grayRoiByte s 0) })

/-- R144, R15: a step clears STICKY only when the host writes STATUS with bit 8 set or resets the block, and sets it only when a
write to CMD ends with CODE other than OK. -/
def Obligations.WhatChangesSticky : Prop :=
  ∀ s t : State, step s = .next t →
    (s.sticky = true → t.sticky = false →
      (∃ v rest, s.pending = .write 0x04 .w32 v :: rest ∧ v.getLsbD 8 = true) ∨ ∃ rest, s.pending = .reset :: rest) ∧
    (s.sticky = false → t.sticky = true →
      (∃ w rest, s.pending = .write 0x00 .w32 w :: rest) ∧ t.code ≠ 0)

/-- R24: OUT is only ever appended to. That a reset step leaves it standing too is the model's choice (log 6): R151 also allows a
reset to clear it. -/
def Obligations.OutIsOnlyAppendedTo : Prop :=
  ∀ s t : State, step s = .next t → ∃ new, t.out = s.out ++ new

/-- R43: host memory changes only when the host stores a byte or writes the word of CPYBLK to CMD. That a
store of the host is a step of one byte is the model's choice (log 8). -/
def Obligations.WhatChangesMemory : Prop :=
  ∀ s t : State, step s = .next t → t.mem ≠ s.mem →
    (∃ a v rest, s.pending = .store a v :: rest) ∨ ∃ rest, s.pending = .write 0x00 .w32 6 :: rest

/-- R12: RES is read-only to the host: a write to it is ignored and a read answers it zero-extended; a step changes it only when a
write to CMD runs SWAP16 or GLUT, or the block is reset. -/
def Obligations.WhatChangesRes : Prop :=
  ∀ s : State,
    (∀ (v : Word) (rest : List HostAccess), s.pending = .write 0x4C .w32 v :: rest →
      step s = .next { s with pending := rest }) ∧
    (∀ rest : List HostAccess, s.pending = .read 0x4C .w32 :: rest →
      step s = .next { s with pending := rest, replies := s.replies ++ [.reg (BitVec.ofNat 32 s.res.toNat)] }) ∧
    ∀ t : State, step s = .next t → t.res ≠ s.res →
      ∃ rest, s.pending = .write 0x00 .w32 7 :: rest ∨ s.pending = .write 0x00 .w32 8 :: rest ∨ s.pending = .reset :: rest

/-- R23, R4: GRAYRAMP and the other parameters are constants, which no command and no access of the host changes; and only GLUT,
GRAY and GRAYROI read GRAYRAMP: with another table in it every other command does the same. -/
def Obligations.TableIsConstant : Prop :=
  (∀ s t : State, step s = .next t → t.cfg = s.cfg) ∧
  ∀ (i : Instr) (s : State) (g : Vector Half 64), i ≠ .glut → i ≠ .gray → i ≠ .grayroi →
    exec i { s with cfg := { s.cfg with grayRamp := g } } =
      mapNext (fun t => { t with cfg := { t.cfg with grayRamp := g } }) (exec i s)

/-- R68: the two coordinates of a pair of WindowBytesH or WindowBytesV, read big-endian, are the coordinates. -/
def Obligations.WindowBytesAreBigEndian : Prop :=
  ∀ a b : Half, ∃ p q r t : Byte, windowBytes a b = [p, q, r, t] ∧
    p.toNat * 256 + q.toNat = a.toNat ∧ r.toNat * 256 + t.toNat = b.toNat

/-! ### The invariant -/

/-- The invariant holds right after reset, whatever valid configuration the platform has (R29, log 1). -/
def Obligations.ResetMeetsInvariant : Prop := Inv State.reset

/-- R26, R21, R130, R4: every step from a state that meets the invariant leads to one that meets it: STAGE keeps CAP slots, host
memory its canonical form, CODE holds no reserved code, and in OUT every data event stands right after a window it fills. The
canonical form (log 4) and that a reset keeps OUT (log 6) are the model's choice. -/
def Obligations.StepKeepsInvariant : Prop :=
  ∀ s t : State, Inv s → step s = .next t → Inv t
end

