-- ==== Sys2Proof/Laws/Memory.lean ====
section
/-! SUPPORT. What the operations on host memory do: reads after writes, the canonical form, and the copy of a row. -/

namespace Sys2Proof.Machine

theorem read_of_absent {m : Memory} {k : Nat} (h : ∀ c ∈ m, c.1 ≠ k) : Memory.read m k = Memory.blank := by
  induction m with
  | nil => rfl
  | cons c rest ih =>
    obtain ⟨a, b⟩ := c
    have ha : a ≠ k := h (a, b) (by simp)
    simp only [Memory.read, if_neg ha]
    exact ih fun c hc => h c (by simp [hc])

theorem wf_tail {c : Host.Cell} {m : Memory} (h : Memory.wf (c :: m)) : Memory.wf m :=
  ⟨(List.pairwise_cons.mp h.1).2, fun d hd => h.2 d (by simp [hd])⟩

theorem wf_head_lt {c : Host.Cell} {m : Memory} (h : Memory.wf (c :: m)) : ∀ d ∈ m, c.1 < d.1 :=
  (List.pairwise_cons.mp h.1).1

/-- A byte written reads back. -/
theorem read_write_same {m : Memory} (h : Memory.wf m) (k : Nat) (v : Byte) :
    Memory.read (Memory.write m k v) k = v := by
  induction m with
  | nil => by_cases hv : v = Memory.blank <;> simp [Memory.write, Memory.read, hv]
  | cons c rest ih =>
    obtain ⟨a, b⟩ := c
    have hlt := wf_head_lt h
    simp only [Memory.write]
    split
    · rename_i hka
      split
      · rename_i hv
        rw [hv]
        refine read_of_absent fun c hc => ?_
        rcases List.mem_cons.mp hc with rfl | hc
        · simp; omega
        · have := hlt c hc; simp at this; omega
      · simp [Memory.read]
    · split
      · rename_i hak
        split
        · rename_i hv
          rw [hv]
          refine read_of_absent fun c hc => ?_
          have := hlt c hc; simp at this; omega
        · simp [Memory.read]
      · rename_i hak
        simp only [Memory.read, if_neg hak]
        exact ih (wf_tail h)

/-- A write leaves every other byte alone. -/
theorem read_write_other (m : Memory) {k j : Nat} (hjk : j ≠ k) (v : Byte) :
    Memory.read (Memory.write m k v) j = Memory.read m j := by
  induction m with
  | nil =>
    simp only [Memory.write]
    split
    · rfl
    · simp [Memory.read, Ne.symm hjk]
  | cons c rest ih =>
    obtain ⟨a, b⟩ := c
    simp only [Memory.write]
    split
    · split
      · rfl
      · simp [Memory.read, Ne.symm hjk]
    · split
      · rename_i hak
        subst hak
        split <;> simp [Memory.read, Ne.symm hjk]
      · by_cases haj : a = j <;> simp [Memory.read, haj, ih]

theorem mem_write {m : Memory} {k : Nat} {v : Byte} {c : Host.Cell} (h : c ∈ Memory.write m k v) :
    c ∈ m ∨ (c = (k, v) ∧ v ≠ Memory.blank) := by
  induction m with
  | nil =>
    simp only [Memory.write] at h
    split at h
    · simp at h
    · rename_i hv
      exact .inr ⟨by simpa using h, hv⟩
  | cons d rest ih =>
    obtain ⟨a, b⟩ := d
    simp only [Memory.write] at h
    split at h
    · split at h
      · exact .inl h
      · rename_i hv
        rcases List.mem_cons.mp h with rfl | h
        · exact .inr ⟨rfl, hv⟩
        · exact .inl h
    · split at h
      · split at h
        · exact .inl (by simp [h])
        · rename_i hv
          rcases List.mem_cons.mp h with rfl | h
          · exact .inr ⟨rfl, hv⟩
          · exact .inl (by simp [h])
      · rcases List.mem_cons.mp h with rfl | h
        · exact .inl (by simp)
        · rcases ih h with h | h
          · exact .inl (by simp [h])
          · exact .inr h

/-- A write inside the address space keeps the canonical form. -/
theorem write_wf {m : Memory} (h : Memory.wf m) {k : Nat} (hk : k < 0x100000000) (v : Byte) :
    Memory.wf (Memory.write m k v) := by
  refine ⟨?_, fun c hc => ?_⟩
  · induction m with
    | nil => by_cases hv : v = Memory.blank <;> simp [Memory.write, hv]
    | cons d rest ih =>
      obtain ⟨a, b⟩ := d
      have hlt := wf_head_lt h
      have ht := (wf_tail h).1
      simp only [Memory.write]
      split
      · rename_i hka
        split
        · exact h.1
        · refine List.pairwise_cons.mpr ⟨fun c hc => ?_, h.1⟩
          rcases List.mem_cons.mp hc with rfl | hc
          · exact hka
          · exact lt_trans hka (hlt c hc)
      · split
        · rename_i hak
          split
          · exact ht
          · exact List.pairwise_cons.mpr ⟨fun c hc => by have := hlt c hc; simp at this ⊢; omega, ht⟩
        · rename_i hka hak
          refine List.pairwise_cons.mpr ⟨fun c hc => ?_, ih (wf_tail h)⟩
          rcases mem_write hc with hc | ⟨rfl, -⟩
          · exact hlt c hc
          · simp; omega
  · rcases mem_write hc with hc | ⟨rfl, hv⟩
    · exact h.2 c hc
    · exact ⟨hv, hk⟩

theorem read_cons_of_lt {c : Host.Cell} {m : Memory} {k : Nat} (h : Memory.wf (c :: m)) (hk : k < c.1) :
    Memory.read (c :: m) k = Memory.blank := by
  refine read_of_absent fun d hd => ?_
  rcases List.mem_cons.mp hd with rfl | hd
  · omega
  · have := wf_head_lt h d hd; omega

/-- Memories in canonical form that read alike are equal: equal memories are equal data. -/
theorem memory_ext {m n : Memory} (hm : Memory.wf m) (hn : Memory.wf n)
    (h : ∀ a, Memory.read m a = Memory.read n a) : m = n := by
  induction m generalizing n with
  | nil =>
    cases n with
    | nil => rfl
    | cons d n =>
      obtain ⟨a, b⟩ := d
      have := h a
      simp [Memory.read] at this
      exact absurd this.symm (hn.2 (a, b) (by simp)).1
  | cons c m ih =>
    obtain ⟨a, b⟩ := c
    have hb := (hm.2 (a, b) (by simp)).1
    cases n with
    | nil =>
      have := h a
      simp [Memory.read] at this
      exact absurd this hb
    | cons d n =>
      obtain ⟨a', b'⟩ := d
      have hb' := (hn.2 (a', b') (by simp)).1
      have haa : a = a' := by
        rcases Nat.lt_trichotomy a a' with hlt | heq | hlt
        · have := h a
          rw [read_cons_of_lt hn hlt] at this
          simp [Memory.read] at this
          exact absurd this hb
        · exact heq
        · have := h a'
          rw [read_cons_of_lt hm hlt] at this
          simp [Memory.read] at this
          exact absurd this.symm hb'
      subst haa
      have hbb : b = b' := by simpa [Memory.read] using h a
      subst hbb
      congr 1
      refine ih (wf_tail hm) (wf_tail hn) fun k => ?_
      by_cases hk : a = k
      · subst hk
        rw [read_of_absent fun c hc => by have := wf_head_lt hm c hc; simp at this; omega,
          read_of_absent fun c hc => by have := wf_head_lt hn c hc; simp at this; omega]
      · simpa [Memory.read, hk] using h k

/-- The 16-bit read is the two bytes, the one at the higher address high. -/
theorem read2_eq (m : Memory) (a : Nat) : Memory.read2 m a = Memory.read m (a + 1) ++ Memory.read m a := by
  unfold Memory.read2
  generalize Memory.read m a = x
  generalize Memory.read m (a + 1) = y
  refine BitVec.eq_of_getLsbD_eq fun i hi => ?_
  have happ : (y ++ x).getLsbD i = bif decide (i < 8) then x.getLsbD i else y.getLsbD (i - 8) := by
    rw [BitVec.getLsbD_append]
    by_cases h : i < 8 <;> simp [h]
  refine Eq.trans ?_ happ.symm
  by_cases h : i < 8
  · simp [h, hi]
  · have hx : x.getLsbD i = false := BitVec.getLsbD_of_ge x i (by omega)
    simp [h, hi, hx]

/-! ### Copying -/

/-- What copying a row does, when the row it writes meets none of the bytes it reads. -/
theorem copyRow_spec (sa da : Nat) : ∀ (n : Nat) (m : Memory), Memory.wf m → (∀ b, b < n → da + b < 0x100000000) →
    (∀ b, b < n → ∀ b', b' < n → sa + b ≠ da + b') →
    Memory.wf (Memory.copyRow sa da n m) ∧
    (∀ b, b < n → Memory.read (Memory.copyRow sa da n m) (da + b) = Memory.read m (sa + b)) ∧
    (∀ a, (∀ b, b < n → a ≠ da + b) → Memory.read (Memory.copyRow sa da n m) a = Memory.read m a) := by
  intro n m hm hda hdis
  induction n with
  | zero => exact ⟨hm, fun b hb => by omega, fun _ _ => rfl⟩
  | succ n ih =>
    obtain ⟨hwf, hin, hout⟩ := ih (fun b hb => hda b (by omega)) (fun b hb b' hb' => hdis b (by omega) b' (by omega))
    have hstep : Memory.copyRow sa da (n + 1) m =
        Memory.write (Memory.copyRow sa da n m) (da + n) (Memory.read (Memory.copyRow sa da n m) (sa + n)) := by
      simp [Memory.copyRow, List.range_succ]
    have hsrc : Memory.read (Memory.copyRow sa da n m) (sa + n) = Memory.read m (sa + n) :=
      hout _ fun b hb => hdis n (by omega) b (by omega)
    rw [hstep, hsrc]
    refine ⟨write_wf hwf (hda n (by omega)) _, fun b hb => ?_, fun a ha => ?_⟩
    · by_cases hbn : b = n
      · subst hbn; exact read_write_same hwf _ _
      · rw [read_write_other _ (by omega), hin b (by omega)]
    · rw [read_write_other _ (ha n (by omega)), hout a fun b hb => ha b (by omega)]

/-- Copying a row changes only the bytes of the row it writes. -/
theorem copyRow_read_other (sa da n : Nat) (m : Memory) {a : Nat} (h : ∀ b, b < n → a ≠ da + b) :
    Memory.read (Memory.copyRow sa da n m) a = Memory.read m a := by
  induction n with
  | zero => rfl
  | succ n ih =>
    have hstep : Memory.copyRow sa da (n + 1) m =
        Memory.write (Memory.copyRow sa da n m) (da + n) (Memory.read (Memory.copyRow sa da n m) (sa + n)) := by
      simp [Memory.copyRow, List.range_succ]
    rw [hstep, read_write_other _ (h n (by omega)), ih fun b hb => h b (by omega)]

/-- Copying a row inside the address space keeps the canonical form. -/
theorem copyRow_wf (sa da n : Nat) {m : Memory} (hm : Memory.wf m) (h : ∀ b, b < n → da + b < 0x100000000) :
    Memory.wf (Memory.copyRow sa da n m) := by
  induction n with
  | zero => exact hm
  | succ n ih =>
    have hstep : Memory.copyRow sa da (n + 1) m =
        Memory.write (Memory.copyRow sa da n m) (da + n) (Memory.read (Memory.copyRow sa da n m) (sa + n)) := by
      simp [Memory.copyRow, List.range_succ]
    rw [hstep]
    exact write_wf (ih fun b hb => h b (by omega)) (h n (by omega)) _

end Sys2Proof.Machine
end

