-- ==== Sys2Proof/Laws/State.lean ====
section
/-! SUPPORT. One lemma per field and update of State, true by definition, so that no later proof unfolds an update. -/

namespace Sys2Proof.Machine

/-! ### `State.raise` -/

@[simp] theorem State.raise_cfg (s : State) (e : Err) : (s.raise e).cfg = s.cfg := rfl
@[simp] theorem State.raise_dx (s : State) (e : Err) : (s.raise e).dx = s.dx := rfl
@[simp] theorem State.raise_dy (s : State) (e : Err) : (s.raise e).dy = s.dy := rfl
@[simp] theorem State.raise_dw (s : State) (e : Err) : (s.raise e).dw = s.dw := rfl
@[simp] theorem State.raise_dh (s : State) (e : Err) : (s.raise e).dh = s.dh := rfl
@[simp] theorem State.raise_sw (s : State) (e : Err) : (s.raise e).sw = s.sw := rfl
@[simp] theorem State.raise_sh (s : State) (e : Err) : (s.raise e).sh = s.sh := rfl
@[simp] theorem State.raise_rx (s : State) (e : Err) : (s.raise e).rx = s.rx := rfl
@[simp] theorem State.raise_ry (s : State) (e : Err) : (s.raise e).ry = s.ry := rfl
@[simp] theorem State.raise_rwd (s : State) (e : Err) : (s.raise e).rwd = s.rwd := rfl
@[simp] theorem State.raise_rht (s : State) (e : Err) : (s.raise e).rht = s.rht := rfl
@[simp] theorem State.raise_src (s : State) (e : Err) : (s.raise e).src = s.src := rfl
@[simp] theorem State.raise_dst (s : State) (e : Err) : (s.raise e).dst = s.dst := rfl
@[simp] theorem State.raise_sstr (s : State) (e : Err) : (s.raise e).sstr = s.sstr := rfl
@[simp] theorem State.raise_dstr (s : State) (e : Err) : (s.raise e).dstr = s.dstr := rfl
@[simp] theorem State.raise_arg (s : State) (e : Err) : (s.raise e).arg = s.arg := rfl
@[simp] theorem State.raise_res (s : State) (e : Err) : (s.raise e).res = s.res := rfl
@[simp] theorem State.raise_orient (s : State) (e : Err) : (s.raise e).orient = s.orient := rfl
@[simp] theorem State.raise_code (s : State) (e : Err) : (s.raise e).code = e.code := rfl
@[simp] theorem State.raise_sticky (s : State) (e : Err) : (s.raise e).sticky = true := rfl
@[simp] theorem State.raise_stage (s : State) (e : Err) : (s.raise e).stage = s.stage := rfl
@[simp] theorem State.raise_out (s : State) (e : Err) : (s.raise e).out = s.out := rfl
@[simp] theorem State.raise_mem (s : State) (e : Err) : (s.raise e).mem = s.mem := rfl
@[simp] theorem State.raise_pending (s : State) (e : Err) : (s.raise e).pending = s.pending := rfl
@[simp] theorem State.raise_replies (s : State) (e : Err) : (s.raise e).replies = s.replies := rfl
@[simp] theorem State.raise_resets (s : State) (e : Err) : (s.raise e).resets = s.resets := rfl

/-! ### `State.succeed` -/

@[simp] theorem State.succeed_cfg (s : State) : (s.succeed).cfg = s.cfg := rfl
@[simp] theorem State.succeed_dx (s : State) : (s.succeed).dx = s.dx := rfl
@[simp] theorem State.succeed_dy (s : State) : (s.succeed).dy = s.dy := rfl
@[simp] theorem State.succeed_dw (s : State) : (s.succeed).dw = s.dw := rfl
@[simp] theorem State.succeed_dh (s : State) : (s.succeed).dh = s.dh := rfl
@[simp] theorem State.succeed_sw (s : State) : (s.succeed).sw = s.sw := rfl
@[simp] theorem State.succeed_sh (s : State) : (s.succeed).sh = s.sh := rfl
@[simp] theorem State.succeed_rx (s : State) : (s.succeed).rx = s.rx := rfl
@[simp] theorem State.succeed_ry (s : State) : (s.succeed).ry = s.ry := rfl
@[simp] theorem State.succeed_rwd (s : State) : (s.succeed).rwd = s.rwd := rfl
@[simp] theorem State.succeed_rht (s : State) : (s.succeed).rht = s.rht := rfl
@[simp] theorem State.succeed_src (s : State) : (s.succeed).src = s.src := rfl
@[simp] theorem State.succeed_dst (s : State) : (s.succeed).dst = s.dst := rfl
@[simp] theorem State.succeed_sstr (s : State) : (s.succeed).sstr = s.sstr := rfl
@[simp] theorem State.succeed_dstr (s : State) : (s.succeed).dstr = s.dstr := rfl
@[simp] theorem State.succeed_arg (s : State) : (s.succeed).arg = s.arg := rfl
@[simp] theorem State.succeed_res (s : State) : (s.succeed).res = s.res := rfl
@[simp] theorem State.succeed_orient (s : State) : (s.succeed).orient = s.orient := rfl
@[simp] theorem State.succeed_code (s : State) : (s.succeed).code = 0 := rfl
@[simp] theorem State.succeed_sticky (s : State) : (s.succeed).sticky = s.sticky := rfl
@[simp] theorem State.succeed_stage (s : State) : (s.succeed).stage = s.stage := rfl
@[simp] theorem State.succeed_out (s : State) : (s.succeed).out = s.out := rfl
@[simp] theorem State.succeed_mem (s : State) : (s.succeed).mem = s.mem := rfl
@[simp] theorem State.succeed_pending (s : State) : (s.succeed).pending = s.pending := rfl
@[simp] theorem State.succeed_replies (s : State) : (s.succeed).replies = s.replies := rfl
@[simp] theorem State.succeed_resets (s : State) : (s.succeed).resets = s.resets := rfl

/-! ### `State.emit` -/

@[simp] theorem State.emit_cfg (s : State) (e : Event) : (s.emit e).cfg = s.cfg := rfl
@[simp] theorem State.emit_dx (s : State) (e : Event) : (s.emit e).dx = s.dx := rfl
@[simp] theorem State.emit_dy (s : State) (e : Event) : (s.emit e).dy = s.dy := rfl
@[simp] theorem State.emit_dw (s : State) (e : Event) : (s.emit e).dw = s.dw := rfl
@[simp] theorem State.emit_dh (s : State) (e : Event) : (s.emit e).dh = s.dh := rfl
@[simp] theorem State.emit_sw (s : State) (e : Event) : (s.emit e).sw = s.sw := rfl
@[simp] theorem State.emit_sh (s : State) (e : Event) : (s.emit e).sh = s.sh := rfl
@[simp] theorem State.emit_rx (s : State) (e : Event) : (s.emit e).rx = s.rx := rfl
@[simp] theorem State.emit_ry (s : State) (e : Event) : (s.emit e).ry = s.ry := rfl
@[simp] theorem State.emit_rwd (s : State) (e : Event) : (s.emit e).rwd = s.rwd := rfl
@[simp] theorem State.emit_rht (s : State) (e : Event) : (s.emit e).rht = s.rht := rfl
@[simp] theorem State.emit_src (s : State) (e : Event) : (s.emit e).src = s.src := rfl
@[simp] theorem State.emit_dst (s : State) (e : Event) : (s.emit e).dst = s.dst := rfl
@[simp] theorem State.emit_sstr (s : State) (e : Event) : (s.emit e).sstr = s.sstr := rfl
@[simp] theorem State.emit_dstr (s : State) (e : Event) : (s.emit e).dstr = s.dstr := rfl
@[simp] theorem State.emit_arg (s : State) (e : Event) : (s.emit e).arg = s.arg := rfl
@[simp] theorem State.emit_res (s : State) (e : Event) : (s.emit e).res = s.res := rfl
@[simp] theorem State.emit_orient (s : State) (e : Event) : (s.emit e).orient = s.orient := rfl
@[simp] theorem State.emit_code (s : State) (e : Event) : (s.emit e).code = s.code := rfl
@[simp] theorem State.emit_sticky (s : State) (e : Event) : (s.emit e).sticky = s.sticky := rfl
@[simp] theorem State.emit_stage (s : State) (e : Event) : (s.emit e).stage = s.stage := rfl
@[simp] theorem State.emit_out (s : State) (e : Event) : (s.emit e).out = s.out ++ [e] := rfl
@[simp] theorem State.emit_mem (s : State) (e : Event) : (s.emit e).mem = s.mem := rfl
@[simp] theorem State.emit_pending (s : State) (e : Event) : (s.emit e).pending = s.pending := rfl
@[simp] theorem State.emit_replies (s : State) (e : Event) : (s.emit e).replies = s.replies := rfl
@[simp] theorem State.emit_resets (s : State) (e : Event) : (s.emit e).resets = s.resets := rfl

/-! ### `State.emitStage` -/

@[simp] theorem State.emitStage_cfg (s : State) (n : Nat) : (s.emitStage n).cfg = s.cfg := rfl
@[simp] theorem State.emitStage_dx (s : State) (n : Nat) : (s.emitStage n).dx = s.dx := rfl
@[simp] theorem State.emitStage_dy (s : State) (n : Nat) : (s.emitStage n).dy = s.dy := rfl
@[simp] theorem State.emitStage_dw (s : State) (n : Nat) : (s.emitStage n).dw = s.dw := rfl
@[simp] theorem State.emitStage_dh (s : State) (n : Nat) : (s.emitStage n).dh = s.dh := rfl
@[simp] theorem State.emitStage_sw (s : State) (n : Nat) : (s.emitStage n).sw = s.sw := rfl
@[simp] theorem State.emitStage_sh (s : State) (n : Nat) : (s.emitStage n).sh = s.sh := rfl
@[simp] theorem State.emitStage_rx (s : State) (n : Nat) : (s.emitStage n).rx = s.rx := rfl
@[simp] theorem State.emitStage_ry (s : State) (n : Nat) : (s.emitStage n).ry = s.ry := rfl
@[simp] theorem State.emitStage_rwd (s : State) (n : Nat) : (s.emitStage n).rwd = s.rwd := rfl
@[simp] theorem State.emitStage_rht (s : State) (n : Nat) : (s.emitStage n).rht = s.rht := rfl
@[simp] theorem State.emitStage_src (s : State) (n : Nat) : (s.emitStage n).src = s.src := rfl
@[simp] theorem State.emitStage_dst (s : State) (n : Nat) : (s.emitStage n).dst = s.dst := rfl
@[simp] theorem State.emitStage_sstr (s : State) (n : Nat) : (s.emitStage n).sstr = s.sstr := rfl
@[simp] theorem State.emitStage_dstr (s : State) (n : Nat) : (s.emitStage n).dstr = s.dstr := rfl
@[simp] theorem State.emitStage_arg (s : State) (n : Nat) : (s.emitStage n).arg = s.arg := rfl
@[simp] theorem State.emitStage_res (s : State) (n : Nat) : (s.emitStage n).res = s.res := rfl
@[simp] theorem State.emitStage_orient (s : State) (n : Nat) : (s.emitStage n).orient = s.orient := rfl
@[simp] theorem State.emitStage_code (s : State) (n : Nat) : (s.emitStage n).code = s.code := rfl
@[simp] theorem State.emitStage_sticky (s : State) (n : Nat) : (s.emitStage n).sticky = s.sticky := rfl
@[simp] theorem State.emitStage_stage (s : State) (n : Nat) : (s.emitStage n).stage = s.stage := rfl
@[simp] theorem State.emitStage_out (s : State) (n : Nat) : (s.emitStage n).out = s.out ++ [.data16 (s.stage.take n)] := rfl
@[simp] theorem State.emitStage_mem (s : State) (n : Nat) : (s.emitStage n).mem = s.mem := rfl
@[simp] theorem State.emitStage_pending (s : State) (n : Nat) : (s.emitStage n).pending = s.pending := rfl
@[simp] theorem State.emitStage_replies (s : State) (n : Nat) : (s.emitStage n).replies = s.replies := rfl
@[simp] theorem State.emitStage_resets (s : State) (n : Nat) : (s.emitStage n).resets = s.resets := rfl

/-! ### `State.writeStage` -/

@[simp] theorem State.writeStage_cfg (s : State) (new : List Half) : (s.writeStage new).cfg = s.cfg := rfl
@[simp] theorem State.writeStage_dx (s : State) (new : List Half) : (s.writeStage new).dx = s.dx := rfl
@[simp] theorem State.writeStage_dy (s : State) (new : List Half) : (s.writeStage new).dy = s.dy := rfl
@[simp] theorem State.writeStage_dw (s : State) (new : List Half) : (s.writeStage new).dw = s.dw := rfl
@[simp] theorem State.writeStage_dh (s : State) (new : List Half) : (s.writeStage new).dh = s.dh := rfl
@[simp] theorem State.writeStage_sw (s : State) (new : List Half) : (s.writeStage new).sw = s.sw := rfl
@[simp] theorem State.writeStage_sh (s : State) (new : List Half) : (s.writeStage new).sh = s.sh := rfl
@[simp] theorem State.writeStage_rx (s : State) (new : List Half) : (s.writeStage new).rx = s.rx := rfl
@[simp] theorem State.writeStage_ry (s : State) (new : List Half) : (s.writeStage new).ry = s.ry := rfl
@[simp] theorem State.writeStage_rwd (s : State) (new : List Half) : (s.writeStage new).rwd = s.rwd := rfl
@[simp] theorem State.writeStage_rht (s : State) (new : List Half) : (s.writeStage new).rht = s.rht := rfl
@[simp] theorem State.writeStage_src (s : State) (new : List Half) : (s.writeStage new).src = s.src := rfl
@[simp] theorem State.writeStage_dst (s : State) (new : List Half) : (s.writeStage new).dst = s.dst := rfl
@[simp] theorem State.writeStage_sstr (s : State) (new : List Half) : (s.writeStage new).sstr = s.sstr := rfl
@[simp] theorem State.writeStage_dstr (s : State) (new : List Half) : (s.writeStage new).dstr = s.dstr := rfl
@[simp] theorem State.writeStage_arg (s : State) (new : List Half) : (s.writeStage new).arg = s.arg := rfl
@[simp] theorem State.writeStage_res (s : State) (new : List Half) : (s.writeStage new).res = s.res := rfl
@[simp] theorem State.writeStage_orient (s : State) (new : List Half) : (s.writeStage new).orient = s.orient := rfl
@[simp] theorem State.writeStage_code (s : State) (new : List Half) : (s.writeStage new).code = s.code := rfl
@[simp] theorem State.writeStage_sticky (s : State) (new : List Half) : (s.writeStage new).sticky = s.sticky := rfl
@[simp] theorem State.writeStage_stage (s : State) (new : List Half) : (s.writeStage new).stage = new ++ s.stage.drop new.length := rfl
@[simp] theorem State.writeStage_out (s : State) (new : List Half) : (s.writeStage new).out = s.out := rfl
@[simp] theorem State.writeStage_mem (s : State) (new : List Half) : (s.writeStage new).mem = s.mem := rfl
@[simp] theorem State.writeStage_pending (s : State) (new : List Half) : (s.writeStage new).pending = s.pending := rfl
@[simp] theorem State.writeStage_replies (s : State) (new : List Half) : (s.writeStage new).replies = s.replies := rfl
@[simp] theorem State.writeStage_resets (s : State) (new : List Half) : (s.writeStage new).resets = s.resets := rfl

/-! ### `State.writeStatus` -/

@[simp] theorem State.writeStatus_cfg (s : State) (v : Word) : (s.writeStatus v).cfg = s.cfg := rfl
@[simp] theorem State.writeStatus_dx (s : State) (v : Word) : (s.writeStatus v).dx = s.dx := rfl
@[simp] theorem State.writeStatus_dy (s : State) (v : Word) : (s.writeStatus v).dy = s.dy := rfl
@[simp] theorem State.writeStatus_dw (s : State) (v : Word) : (s.writeStatus v).dw = s.dw := rfl
@[simp] theorem State.writeStatus_dh (s : State) (v : Word) : (s.writeStatus v).dh = s.dh := rfl
@[simp] theorem State.writeStatus_sw (s : State) (v : Word) : (s.writeStatus v).sw = s.sw := rfl
@[simp] theorem State.writeStatus_sh (s : State) (v : Word) : (s.writeStatus v).sh = s.sh := rfl
@[simp] theorem State.writeStatus_rx (s : State) (v : Word) : (s.writeStatus v).rx = s.rx := rfl
@[simp] theorem State.writeStatus_ry (s : State) (v : Word) : (s.writeStatus v).ry = s.ry := rfl
@[simp] theorem State.writeStatus_rwd (s : State) (v : Word) : (s.writeStatus v).rwd = s.rwd := rfl
@[simp] theorem State.writeStatus_rht (s : State) (v : Word) : (s.writeStatus v).rht = s.rht := rfl
@[simp] theorem State.writeStatus_src (s : State) (v : Word) : (s.writeStatus v).src = s.src := rfl
@[simp] theorem State.writeStatus_dst (s : State) (v : Word) : (s.writeStatus v).dst = s.dst := rfl
@[simp] theorem State.writeStatus_sstr (s : State) (v : Word) : (s.writeStatus v).sstr = s.sstr := rfl
@[simp] theorem State.writeStatus_dstr (s : State) (v : Word) : (s.writeStatus v).dstr = s.dstr := rfl
@[simp] theorem State.writeStatus_arg (s : State) (v : Word) : (s.writeStatus v).arg = s.arg := rfl
@[simp] theorem State.writeStatus_res (s : State) (v : Word) : (s.writeStatus v).res = s.res := rfl
@[simp] theorem State.writeStatus_orient (s : State) (v : Word) : (s.writeStatus v).orient = s.orient := rfl
@[simp] theorem State.writeStatus_code (s : State) (v : Word) : (s.writeStatus v).code = s.code := rfl
@[simp] theorem State.writeStatus_sticky (s : State) (v : Word) : (s.writeStatus v).sticky = (s.sticky && !v.getLsbD 8) := rfl
@[simp] theorem State.writeStatus_stage (s : State) (v : Word) : (s.writeStatus v).stage = s.stage := rfl
@[simp] theorem State.writeStatus_out (s : State) (v : Word) : (s.writeStatus v).out = s.out := rfl
@[simp] theorem State.writeStatus_mem (s : State) (v : Word) : (s.writeStatus v).mem = s.mem := rfl
@[simp] theorem State.writeStatus_pending (s : State) (v : Word) : (s.writeStatus v).pending = s.pending := rfl
@[simp] theorem State.writeStatus_replies (s : State) (v : Word) : (s.writeStatus v).replies = s.replies := rfl
@[simp] theorem State.writeStatus_resets (s : State) (v : Word) : (s.writeStatus v).resets = s.resets := rfl

/-! ### `State.writeOrient` -/

@[simp] theorem State.writeOrient_cfg (s : State) (v : Word) : (s.writeOrient v).cfg = s.cfg := rfl
@[simp] theorem State.writeOrient_dx (s : State) (v : Word) : (s.writeOrient v).dx = s.dx := rfl
@[simp] theorem State.writeOrient_dy (s : State) (v : Word) : (s.writeOrient v).dy = s.dy := rfl
@[simp] theorem State.writeOrient_dw (s : State) (v : Word) : (s.writeOrient v).dw = s.dw := rfl
@[simp] theorem State.writeOrient_dh (s : State) (v : Word) : (s.writeOrient v).dh = s.dh := rfl
@[simp] theorem State.writeOrient_sw (s : State) (v : Word) : (s.writeOrient v).sw = s.sw := rfl
@[simp] theorem State.writeOrient_sh (s : State) (v : Word) : (s.writeOrient v).sh = s.sh := rfl
@[simp] theorem State.writeOrient_rx (s : State) (v : Word) : (s.writeOrient v).rx = s.rx := rfl
@[simp] theorem State.writeOrient_ry (s : State) (v : Word) : (s.writeOrient v).ry = s.ry := rfl
@[simp] theorem State.writeOrient_rwd (s : State) (v : Word) : (s.writeOrient v).rwd = s.rwd := rfl
@[simp] theorem State.writeOrient_rht (s : State) (v : Word) : (s.writeOrient v).rht = s.rht := rfl
@[simp] theorem State.writeOrient_src (s : State) (v : Word) : (s.writeOrient v).src = s.src := rfl
@[simp] theorem State.writeOrient_dst (s : State) (v : Word) : (s.writeOrient v).dst = s.dst := rfl
@[simp] theorem State.writeOrient_sstr (s : State) (v : Word) : (s.writeOrient v).sstr = s.sstr := rfl
@[simp] theorem State.writeOrient_dstr (s : State) (v : Word) : (s.writeOrient v).dstr = s.dstr := rfl
@[simp] theorem State.writeOrient_arg (s : State) (v : Word) : (s.writeOrient v).arg = s.arg := rfl
@[simp] theorem State.writeOrient_res (s : State) (v : Word) : (s.writeOrient v).res = s.res := rfl
@[simp] theorem State.writeOrient_orient (s : State) (v : Word) : (s.writeOrient v).orient = v.setWidth 8 := rfl
@[simp] theorem State.writeOrient_code (s : State) (v : Word) : (s.writeOrient v).code = s.code := rfl
@[simp] theorem State.writeOrient_sticky (s : State) (v : Word) : (s.writeOrient v).sticky = s.sticky := rfl
@[simp] theorem State.writeOrient_stage (s : State) (v : Word) : (s.writeOrient v).stage = s.stage := rfl
@[simp] theorem State.writeOrient_out (s : State) (v : Word) : (s.writeOrient v).out = s.out ++ [.orient (v.setWidth 8)] := rfl
@[simp] theorem State.writeOrient_mem (s : State) (v : Word) : (s.writeOrient v).mem = s.mem := rfl
@[simp] theorem State.writeOrient_pending (s : State) (v : Word) : (s.writeOrient v).pending = s.pending := rfl
@[simp] theorem State.writeOrient_replies (s : State) (v : Word) : (s.writeOrient v).replies = s.replies := rfl
@[simp] theorem State.writeOrient_resets (s : State) (v : Word) : (s.writeOrient v).resets = s.resets := rfl

/-! ### `State.hostReset` -/

@[simp] theorem State.hostReset_cfg (s : State) : (s.hostReset).cfg = s.cfg := rfl
@[simp] theorem State.hostReset_dx (s : State) : (s.hostReset).dx = 0 := rfl
@[simp] theorem State.hostReset_dy (s : State) : (s.hostReset).dy = 0 := rfl
@[simp] theorem State.hostReset_dw (s : State) : (s.hostReset).dw = 0 := rfl
@[simp] theorem State.hostReset_dh (s : State) : (s.hostReset).dh = 0 := rfl
@[simp] theorem State.hostReset_sw (s : State) : (s.hostReset).sw = 0 := rfl
@[simp] theorem State.hostReset_sh (s : State) : (s.hostReset).sh = 0 := rfl
@[simp] theorem State.hostReset_rx (s : State) : (s.hostReset).rx = 0 := rfl
@[simp] theorem State.hostReset_ry (s : State) : (s.hostReset).ry = 0 := rfl
@[simp] theorem State.hostReset_rwd (s : State) : (s.hostReset).rwd = 0 := rfl
@[simp] theorem State.hostReset_rht (s : State) : (s.hostReset).rht = 0 := rfl
@[simp] theorem State.hostReset_src (s : State) : (s.hostReset).src = 0 := rfl
@[simp] theorem State.hostReset_dst (s : State) : (s.hostReset).dst = 0 := rfl
@[simp] theorem State.hostReset_sstr (s : State) : (s.hostReset).sstr = 0 := rfl
@[simp] theorem State.hostReset_dstr (s : State) : (s.hostReset).dstr = 0 := rfl
@[simp] theorem State.hostReset_arg (s : State) : (s.hostReset).arg = 0 := rfl
@[simp] theorem State.hostReset_res (s : State) : (s.hostReset).res = 0 := rfl
@[simp] theorem State.hostReset_orient (s : State) : (s.hostReset).orient = 0 := rfl
@[simp] theorem State.hostReset_code (s : State) : (s.hostReset).code = 0 := rfl
@[simp] theorem State.hostReset_sticky (s : State) : (s.hostReset).sticky = false := rfl
@[simp] theorem State.hostReset_stage (s : State) : (s.hostReset).stage = stageAfter s.cfg (s.resets + 1) := rfl
@[simp] theorem State.hostReset_out (s : State) : (s.hostReset).out = s.out := rfl
@[simp] theorem State.hostReset_mem (s : State) : (s.hostReset).mem = s.mem := rfl
@[simp] theorem State.hostReset_pending (s : State) : (s.hostReset).pending = s.pending := rfl
@[simp] theorem State.hostReset_replies (s : State) : (s.hostReset).replies = s.replies := rfl
@[simp] theorem State.hostReset_resets (s : State) : (s.hostReset).resets = s.resets + 1 := rfl

/-! ### The state after reset -/

@[simp] theorem State.resetOf_cfg (c : Config) : (State.resetOf c).cfg = c := rfl
@[simp] theorem State.resetOf_dx (c : Config) : (State.resetOf c).dx = 0 := rfl
@[simp] theorem State.resetOf_dy (c : Config) : (State.resetOf c).dy = 0 := rfl
@[simp] theorem State.resetOf_dw (c : Config) : (State.resetOf c).dw = 0 := rfl
@[simp] theorem State.resetOf_dh (c : Config) : (State.resetOf c).dh = 0 := rfl
@[simp] theorem State.resetOf_sw (c : Config) : (State.resetOf c).sw = 0 := rfl
@[simp] theorem State.resetOf_sh (c : Config) : (State.resetOf c).sh = 0 := rfl
@[simp] theorem State.resetOf_rx (c : Config) : (State.resetOf c).rx = 0 := rfl
@[simp] theorem State.resetOf_ry (c : Config) : (State.resetOf c).ry = 0 := rfl
@[simp] theorem State.resetOf_rwd (c : Config) : (State.resetOf c).rwd = 0 := rfl
@[simp] theorem State.resetOf_rht (c : Config) : (State.resetOf c).rht = 0 := rfl
@[simp] theorem State.resetOf_src (c : Config) : (State.resetOf c).src = 0 := rfl
@[simp] theorem State.resetOf_dst (c : Config) : (State.resetOf c).dst = 0 := rfl
@[simp] theorem State.resetOf_sstr (c : Config) : (State.resetOf c).sstr = 0 := rfl
@[simp] theorem State.resetOf_dstr (c : Config) : (State.resetOf c).dstr = 0 := rfl
@[simp] theorem State.resetOf_arg (c : Config) : (State.resetOf c).arg = 0 := rfl
@[simp] theorem State.resetOf_res (c : Config) : (State.resetOf c).res = 0 := rfl
@[simp] theorem State.resetOf_orient (c : Config) : (State.resetOf c).orient = 0 := rfl
@[simp] theorem State.resetOf_code (c : Config) : (State.resetOf c).code = 0 := rfl
@[simp] theorem State.resetOf_sticky (c : Config) : (State.resetOf c).sticky = false := rfl
@[simp] theorem State.resetOf_stage (c : Config) : (State.resetOf c).stage = stageAfter c 0 := rfl
@[simp] theorem State.resetOf_out (c : Config) : (State.resetOf c).out = [] := rfl
@[simp] theorem State.resetOf_mem (c : Config) : (State.resetOf c).mem = [] := rfl
@[simp] theorem State.resetOf_pending (c : Config) : (State.resetOf c).pending = [] := rfl
@[simp] theorem State.resetOf_replies (c : Config) : (State.resetOf c).replies = [] := rfl
@[simp] theorem State.resetOf_resets (c : Config) : (State.resetOf c).resets = 0 := rfl

@[simp] theorem stageAfter_length (c : Config) (n : Nat) : (stageAfter c n).length = c.cap := by simp [stageAfter]

theorem State.writeStage_length (new : List Half) (s : State) (h : new.length ≤ s.stage.length) :
    (s.writeStage new).stage.length = s.stage.length := by
  simp; omega

/-- The platform's configuration is a valid one, whatever `Config.given` is. -/
theorem platform_valid : Config.platform.Valid := by
  unfold Config.platform
  split
  · assumption
  · decide

end Sys2Proof.Machine
end

