-- ==== Sys2Proof/Laws/Ops.lean ====
section
/-! SUPPORT. One lemma per shared operation: admission, footprints, the pair rule, the datapath functions, the checks, and how a
command ends. -/

namespace Sys2Proof.Machine

open Sys2Proof.Safety

/-! ### Admission and footprints -/

theorem admitsRead_iff (c : Config) (a : Nat) : admitsRead c a = true ↔ MayRead c a := by
  simp only [admitsRead, inRegisterBlock, regionCovers, Bool.and_eq_true, Bool.not_eq_true', decide_eq_true_eq,
    Bool.and_eq_false_iff, decide_eq_false_iff_not, List.any_eq_true, MayRead, not_and_or, and_assoc, Nat.reducePow]

theorem admitsWrite_iff (c : Config) (a : Nat) : admitsWrite c a = true ↔ MayWrite c a := by
  simp only [admitsWrite, inRegisterBlock, regionCovers, Bool.and_eq_true, Bool.not_eq_true', decide_eq_true_eq,
    Bool.and_eq_false_iff, decide_eq_false_iff_not, List.any_eq_true, MayWrite, not_and_or, and_assoc, Nat.reducePow]

theorem inRegisterBlock_iff (c : Config) (a : Nat) :
    inRegisterBlock c a = true ↔ c.regBase.toNat ≤ a ∧ a < c.regBase.toNat + 256 := by
  simp [inRegisterBlock]

theorem footprintAll_iff (ok : Nat → Bool) (fp : List Span) :
    footprintAll ok fp = true ↔ ∀ p ∈ fp, ∀ k, k < p.len → ok (p.start + k) = true := by
  simp [footprintAll]

theorem span_has_iff (p : Span) (a : Nat) : p.has a = true ↔ ∃ k, k < p.len ∧ a = p.start + k := by
  simp only [Span.has, Bool.and_eq_true, decide_eq_true_eq]
  exact ⟨fun h => ⟨a - p.start, by omega, by omega⟩, by rintro ⟨k, hk, rfl⟩; omega⟩

theorem span_meets_iff (p q : Span) : p.meets q = true ↔ ∃ a, p.has a = true ∧ q.has a = true := by
  simp only [Span.meets, Span.has, Bool.and_eq_true, decide_eq_true_eq]
  exact ⟨fun h => ⟨max p.start q.start, by omega⟩, by rintro ⟨a, h⟩; omega⟩

/-- Two footprints meet exactly when a byte address lies in both (43_copy.md R122). -/
theorem footprintsMeet_iff (fp fq : List Span) :
    footprintsMeet fp fq = true ↔ ∃ p ∈ fp, ∃ q ∈ fq, ∃ a, p.has a = true ∧ q.has a = true := by
  simp only [footprintsMeet, List.any_eq_true, span_meets_iff]

theorem readFails_iff (s : State) (fp : List Span) :
    s.readFails fp = true ↔ ∃ p ∈ fp, Unreadable s.cfg p.start p.len := by
  have h : s.readFails fp = true ↔ ¬(footprintAll (admitsRead s.cfg) fp = true) := by simp [State.readFails]
  rw [h, footprintAll_iff]
  simp only [admitsRead_iff, not_forall, exists_prop]

/-! ### The pair rule -/

@[simp] theorem stagePairs_length (n : Nat) (f : Nat → Half) : (stagePairs n f).length = 2 * n := by
  induction n with
  | zero => rfl
  | succ n ih => simp [stagePairs, List.range_succ] at ih ⊢; omega

theorem stagePairs_succ (n : Nat) (f : Nat → Half) :
    stagePairs (n + 1) f = stagePairs n f ++ [f (2 * n + 1), f (2 * n)] := by
  simp [stagePairs, List.range_succ]

theorem even_xor_one (n : Nat) : (2 * n) ^^^ 1 = 2 * n + 1 := by
  apply Nat.eq_of_testBit_eq
  intro i
  cases i with
  | zero => simp
  | succ i => simp [Nat.testBit_succ, Nat.mul_add_div]

theorem odd_xor_one (n : Nat) : (2 * n + 1) ^^^ 1 = 2 * n := by
  rw [← even_xor_one, Nat.xor_assoc, Nat.xor_self, Nat.xor_zero]

/-- The closed form of the pair rule: slot j holds element j ^ 1 (41_staged_blit.md R105). -/
theorem stagePairs_eq_map (n : Nat) (f : Nat → Half) :
    stagePairs n f = (List.range (2 * n)).map fun j => f (j ^^^ 1) := by
  induction n with
  | zero => rfl
  | succ n ih =>
    rw [stagePairs_succ, ih, Nat.mul_succ, List.range_succ, List.range_succ]
    simp [odd_xor_one]

theorem stagePairs_congr {n : Nat} {f g : Nat → Half} (h : ∀ j, f j = g j) : stagePairs n f = stagePairs n g := by
  rw [funext h]

/-! ### The datapath functions -/

theorem getLsbD_swap16 (v : Half) {i : Nat} (hi : i < 16) :
    (swap16 v).getLsbD i = if i < 8 then v.getLsbD (i + 8) else v.getLsbD (i - 8) := by
  have hm : ∀ j, j < 8 → (0x00FF#16).getLsbD j = true := by decide
  simp only [swap16, BitVec.getLsbD_or, BitVec.getLsbD_shiftLeft, BitVec.getLsbD_and, BitVec.getLsbD_ushiftRight, hi]
  by_cases h : i < 8
  · simp [h, Nat.add_comm 8 i]
  · have hz : v.getLsbD (8 + i) = false := BitVec.getLsbD_of_ge v _ (by omega)
    have h1 := hm (i - 8) (by omega)
    rw [show (0x00FF : Half).getLsbD (i - 8) = true from h1]
    simp [h, hz]

/-- The byte-swapped pixel at an address is its two bytes in address order, the first one high (20_memory.md R45). -/
theorem swap16_read2 (m : Memory) (a : Nat) : swap16 (Memory.read2 m a) = swappedPixel m a := by
  rw [read2_eq]
  unfold swappedPixel
  generalize Memory.read m a = x
  generalize Memory.read m (a + 1) = y
  have happ : ∀ (p q : Byte) (i : Nat), (p ++ q : BitVec (8 + 8)).getLsbD i =
      if i < 8 then q.getLsbD i else p.getLsbD (i - 8) := by
    intro p q i
    rw [BitVec.getLsbD_append]
  refine BitVec.eq_of_getLsbD_eq fun i hi => ?_
  rw [getLsbD_swap16 _ hi]
  have h1 := happ x y i
  have h2 := happ y x (i + 8)
  have h3 := happ y x (i - 8)
  by_cases h : i < 8
  · rw [if_pos h] at h1 ⊢
    rw [if_neg (by omega), Nat.add_sub_cancel] at h2
    exact h2.trans h1.symm
  · rw [if_neg h] at h1 ⊢
    rw [if_pos (by omega)] at h3
    exact h3.trans h1.symm

theorem gray565_eq (c : Config) (v : Byte) : gray565 c v = grayColour c v := by
  unfold gray565 rampEntry grayColour
  congr 1
  simp [BitVec.extractLsb'_toNat, Nat.shiftRight_eq_div_pow]
  have := v.isLt
  omega

theorem picPixel_eq (s : State) (k : Nat) : s.picPixel k = swappedPixel s.mem (s.src.toNat + 2 * k) :=
  swap16_read2 _ _

theorem picsPixel_eq (s : State) (xx yy : Nat) :
    s.picsPixel xx yy = swappedPixel s.mem (s.src.toNat + 2 * sampleIndex s xx yy) :=
  swap16_read2 _ _

theorem grayPixel_eq (s : State) (a k : Nat) : s.grayPixel a k = grayColour s.cfg (Memory.read s.mem (a + k)) :=
  gray565_eq _ _

/-! ### The window and its checks -/

theorem coordFails_iff (s : State) (w h : Nat) : s.coordFails w h = true ↔ OutsidePanel s w h := by
  simp [State.coordFails]

theorem regionFails_iff (s : State) : s.regionFails = true ↔ OutsideSource s := by
  simp [State.regionFails]

theorem windowAt_eq (s : State) (line w h : Nat) :
    s.windowAt line w h = windowOf s.dx.toNat (s.dy.toNat + line) w h := by
  simp [State.windowAt, windowOf]

/-- Under either orientation the extent spans as many pixels as STAGE has slots (41_staged_blit.md R107). -/
theorem extent_area (s : State) (h : s.cfg.Valid) : (s.extW + 1) * (s.extH + 1) = s.cfg.cap := by
  obtain ⟨⟨hx, -⟩, ⟨hy, -⟩, -⟩ := h
  unfold State.extW State.extH Config.cap
  split
  · rw [Nat.sub_add_cancel hx, Nat.sub_add_cancel hy, Nat.mul_comm]
  · rw [Nat.sub_add_cancel hx, Nat.sub_add_cancel hy]

theorem extent_le (s : State) (h : s.cfg.Valid) : s.extW ≤ 65535 ∧ s.extH ≤ 65535 := by
  obtain ⟨⟨hx, hx'⟩, ⟨hy, hy'⟩, -⟩ := h
  unfold State.extW State.extH
  split <;> omega

/-! ### Registers read back -/

theorem setWidth_16_32 (v : Word) : (v.setWidth 16).setWidth 32 = v &&& 0xFFFF := by
  have h : v.toNat &&& (2 ^ 16 - 1) = v.toNat % 2 ^ 16 := Nat.and_two_pow_sub_one_eq_mod _ _
  apply BitVec.eq_of_toNat_eq
  simp at h ⊢
  omega

theorem setWidth_8_32 (v : Word) : (v.setWidth 8).setWidth 32 = v &&& 0xFF := by
  have h : v.toNat &&& (2 ^ 8 - 1) = v.toNat % 2 ^ 8 := Nat.and_two_pow_sub_one_eq_mod _ _
  apply BitVec.eq_of_toNat_eq
  simp at h ⊢
  omega

theorem append_toNat (a b : Half) : ((a ++ b : BitVec (16 + 16)) : Word).toNat = a.toNat * 65536 + b.toNat := by
  rw [BitVec.toNat_append, ← Nat.shiftLeft_add_eq_or_of_lt b.isLt, Nat.shiftLeft_eq]

theorem extentWord_toNat (s : State) : s.extentWord.toNat = s.extH % 65536 * 65536 + s.extW % 65536 := by
  rw [State.extentWord, append_toNat]
  simp

theorem statusWord_toNat (s : State) : s.statusWord.toNat = s.code.toNat + if s.sticky then 256 else 0 := by
  have hc := s.code.isLt
  have hor : (2 ^ 8 * 1 ||| s.code.toNat) = 2 ^ 8 * 1 + s.code.toNat := (Nat.two_pow_add_eq_or_of_lt hc 1).symm
  cases hs : s.sticky <;> simp [State.statusWord, hs]
  · omega
  · rw [Nat.mod_eq_of_lt (by omega), Nat.or_comm]
    simp at hor
    omega

theorem swap16_toNat (v : Half) : (swap16 v).toNat = v.toNat % 256 * 256 + v.toNat / 256 := by
  have hv := v.isLt
  have hand : v.toNat &&& (2 ^ 8 - 1) = v.toNat % 2 ^ 8 := Nat.and_two_pow_sub_one_eq_mod _ _
  have hor : (2 ^ 8 * (v.toNat % 256) ||| v.toNat / 256) = 2 ^ 8 * (v.toNat % 256) + v.toNat / 256 :=
    (Nat.two_pow_add_eq_or_of_lt (by omega) _).symm
  simp only [swap16, BitVec.toNat_or, BitVec.toNat_shiftLeft, BitVec.toNat_and, BitVec.toNat_ushiftRight,
    Nat.shiftLeft_eq, Nat.shiftRight_eq_div_pow]
  simp at hand hor ⊢
  rw [hand, Nat.mod_eq_of_lt (by omega), Nat.mul_comm, hor]

/-- The axis-swap bit, under a valid mask, is one bit of ORIENT (10_state.md R17). -/
theorem axesSwapped_eq (s : State) (b : Fin 8) (h : s.cfg.axisSwapMask = 1#8 <<< b.val) :
    s.axesSwapped = s.orient.getLsbD b.val := by
  have key : ∀ (b : Fin 8) (o : Byte), (o &&& 1#8 <<< b.val != 0) = o.getLsbD b.val := by decide +kernel
  rw [State.axesSwapped, h, key]

/-! ### How a command ends -/

theorem firstError_mem {cs : List (Bool × Err)} {e : Err} (h : firstError cs = some e) : (true, e) ∈ cs := by
  induction cs with
  | nil => simp [firstError] at h
  | cons c cs ih =>
    obtain ⟨b, e'⟩ := c
    cases b with
    | true => simp [firstError] at h; simp [h]
    | false => simp [firstError] at h; simp [ih h]

theorem firstError_none {cs : List (Bool × Err)} : firstError cs = none ↔ ∀ c ∈ cs, c.1 = false := by
  induction cs with
  | nil => simp [firstError]
  | cons c cs ih =>
    obtain ⟨b, e⟩ := c
    cases b <;> simp [firstError, ih]

/-- All a command can do: end in the error of its first failing check, or complete with its effect. -/
theorem runCommand_cases (cs : List (Bool × Err)) (f : State → State) (s : State) :
    (∃ e, firstError cs = some e ∧ runCommand cs f s = .next (s.raise e)) ∨
      (firstError cs = none ∧ runCommand cs f s = .next (f s).succeed) := by
  unfold runCommand
  cases h : firstError cs with
  | some e => exact .inl ⟨e, rfl, rfl⟩
  | none => exact .inr ⟨rfl, rfl⟩

theorem runCommand_none {cs : List (Bool × Err)} (h : firstError cs = none) (f : State → State) (s : State) :
    runCommand cs f s = .next (f s).succeed := by simp [runCommand, h]

theorem runCommand_some {cs : List (Bool × Err)} {e : Err} (h : firstError cs = some e) (f : State → State) (s : State) :
    runCommand cs f s = .next (s.raise e) := by simp [runCommand, h]

/-- A command with the same checks whose effect commutes with a change `u` of the state commutes with it. -/
theorem runCommand_map {cs cs' : List (Bool × Err)} {f f' : State → State} (u : State → State) (s : State) (hcs : cs' = cs)
    (hr : ∀ e, (u s).raise e = u (s.raise e)) (hf : (f' (u s)).succeed = u (f s).succeed) :
    runCommand cs' f' (u s) = mapNext u (runCommand cs f s) := by
  subst hcs
  rcases runCommand_cases cs' f s with ⟨e, h, h'⟩ | ⟨h, h'⟩
  · rw [h', runCommand_some h, hr]; rfl
  · rw [h', runCommand_none h, hf]; rfl

theorem raise_eq (e : Err) (s : State) : s.raise e = { s with code := e.code, sticky := true } := rfl

theorem errCode_ne_zero (e : Err) : e.code ≠ 0 := by cases e <;> decide

theorem errCode_le (e : Err) : e.code ≤ 9 := by cases e <;> decide

end Sys2Proof.Machine
end

