-- ==== Sys2Proof/Laws/Exec.lean ====
section
/-! SUPPORT. What the commands do: each is its checks, then its effect; the effects in closed form; when no check fails. -/

namespace Sys2Proof.Machine

open Sys2Proof.Safety

/-! ### A command is its checks and its effect -/

/-- The checks of a command, in order. -/
def commandChecks (s : State) : Instr → List (Bool × Err)
  | .pic => s.picChecks
  | .pics => s.picsChecks
  | .roi => s.roiChecks
  | .gray => s.grayChecks
  | .grayroi => s.grayRoiChecks
  | .cpyblk => s.copyChecks
  | .swap16 => []
  | .glut => []

/-- The effect of a command on operands that pass its checks. -/
def commandEffect (s : State) : Instr → State
  | .pic => s.stagedBlit 0 s.dw.toNat s.dh.toNat (stagePairs (s.cfg.cap / 2) s.picPixel)
  | .pics => s.stagedBlit 0 s.dw.toNat s.dh.toNat s.picsSlots
  | .roi => (List.range s.rht.toNat).foldl State.roiLine s
  | .gray => s.stagedBlit 0 s.dw.toNat s.dh.toNat (s.graySlots s.src.toNat)
  | .grayroi => (List.range s.rht.toNat).foldl State.grayRoiLine s
  | .cpyblk => { s with mem := s.copyRows }
  | .swap16 => { s with res := swap16 s.arg }
  | .glut => { s with res := gray565 s.cfg (s.arg.setWidth 8) }

theorem exec_eq_runCommand (i : Instr) (s : State) :
    exec i s = runCommand (commandChecks s i) (fun s => commandEffect s i) s := by
  cases i <;> rfl

/-- All a command can do (60_exceptions.md R131). -/
theorem exec_cases (i : Instr) (s : State) :
    (∃ e, firstError (commandChecks s i) = some e ∧ exec i s = .next (s.raise e)) ∨
      (firstError (commandChecks s i) = none ∧ exec i s = .next (commandEffect s i).succeed) := by
  rw [exec_eq_runCommand]
  exact runCommand_cases _ _ _

theorem exec_of_none {i : Instr} {s : State} (h : firstError (commandChecks s i) = none) :
    exec i s = .next (commandEffect s i).succeed := by
  rw [exec_eq_runCommand, runCommand_none h]

theorem exec_of_some {i : Instr} {s : State} {e : Err} (h : firstError (commandChecks s i) = some e) :
    exec i s = .next { s with code := e.code, sticky := true } := by
  rw [exec_eq_runCommand, runCommand_some h, raise_eq]

/-! ### The effects in closed form -/

/-- A staged blit: the window, the slots written, then the slots streamed. -/
theorem stagedBlit_eq (s : State) (line w h : Nat) {new : List Half} (hn : w * h ≤ new.length) :
    s.stagedBlit line w h new = { s with
      stage := new ++ s.stage.drop new.length
      out := s.out ++ [s.windowAt line w h, .data16 (new.take (w * h))] } := by
  simp [State.stagedBlit, State.emitStage, State.writeStage, State.emit, List.take_append_of_le_length hn]

/-- The events of one line of ROI (42_roi.md R111). -/
def roiEvents (s : State) (line : Nat) : List Event :=
  [s.windowAt line s.rwd.toNat 1, .data8 (Memory.bytes s.mem (s.roiAddr line) (2 * s.rwd.toNat))]

theorem roiLine_eq (s : State) (line : Nat) : s.roiLine line = { s with out := s.out ++ roiEvents s line } := by
  simp [State.roiLine, State.emit, roiEvents]

theorem roiLines_eq (s : State) (n : Nat) :
    (List.range n).foldl State.roiLine s = { s with out := s.out ++ (List.range n).flatMap (roiEvents s) } := by
  induction n with
  | zero => simp
  | succ n ih =>
    rw [List.range_succ, List.foldl_append, ih, List.foldl_cons, List.foldl_nil, roiLine_eq, List.flatMap_append,
      ← List.append_assoc]
    simp [roiEvents, State.windowAt, State.roiAddr]

@[simp] theorem graySlots_length (s : State) (a : Nat) : (s.graySlots a).length = 2 * (s.cfg.cap / 2) := by
  simp [State.graySlots]

/-- The events of one line of GRAYROI (42_roi.md R114). -/
def grayRoiEvents (s : State) (line : Nat) : List Event :=
  [s.windowAt line s.rwd.toNat 1, .data16 ((s.graySlots (s.grayRoiAddr line)).take s.rwd.toNat)]

/-- STAGE after `n` lines of GRAYROI: the remap of the last one (R114). -/
def grayRoiStage (s : State) : Nat → List Half
  | 0 => s.stage
  | n + 1 => s.graySlots (s.grayRoiAddr n) ++ s.stage.drop (2 * (s.cfg.cap / 2))

theorem grayRoiLines_eq (s : State) (h : s.rwd.toNat ≤ 2 * (s.cfg.cap / 2)) (n : Nat) :
    (List.range n).foldl State.grayRoiLine s = { s with
      stage := grayRoiStage s n
      out := s.out ++ (List.range n).flatMap (grayRoiEvents s) } := by
  induction n with
  | zero => simp [grayRoiStage]
  | succ n ih =>
    have hd : (grayRoiStage s n).drop (2 * (s.cfg.cap / 2)) = s.stage.drop (2 * (s.cfg.cap / 2)) := by
      cases n with
      | zero => rfl
      | succ n => simp [grayRoiStage]
    rw [List.range_succ, List.foldl_append, ih, List.foldl_cons, List.foldl_nil, State.grayRoiLine,
      stagedBlit_eq _ _ _ _ (by simpa using h)]
    simp only [graySlots_length, hd, List.flatMap_append, ← List.append_assoc]
    simp only [List.flatMap_cons, List.flatMap_nil, List.append_nil, grayRoiStage, Nat.mul_one]
    rfl

/-- The lines of GRAYROI commute with a change of the state that each line commutes with. -/
theorem grayRoiLines_comm (u : State → State) (h : ∀ t line, (u t).grayRoiLine line = u (t.grayRoiLine line)) (s : State)
    (n : Nat) : (List.range n).foldl State.grayRoiLine (u s) = u ((List.range n).foldl State.grayRoiLine s) := by
  induction n with
  | zero => rfl
  | succ n ih =>
    rw [List.range_succ, List.foldl_append, List.foldl_append, ih]
    exact h _ _

/-! ### What an effect can change -/

theorem stagedBlit_frame (s : State) (line w h : Nat) (new : List Half) :
    ∃ o, s.stagedBlit line w h new = { s with
      stage := new ++ s.stage.drop new.length
      out := s.out ++ o } :=
  ⟨[s.windowAt line w h, .data16 ((new ++ s.stage.drop new.length).take (w * h))], by
    simp [State.stagedBlit, State.emitStage, State.writeStage, State.emit]⟩

theorem grayRoiLines_frame (s : State) (n : Nat) :
    ∃ st o, (List.range n).foldl State.grayRoiLine s = { s with stage := st, out := s.out ++ o } := by
  induction n with
  | zero => exact ⟨s.stage, [], by simp⟩
  | succ n ih =>
    obtain ⟨st, o, h⟩ := ih
    rw [List.range_succ, List.foldl_append, h, List.foldl_cons, List.foldl_nil, State.grayRoiLine]
    obtain ⟨o', h'⟩ := stagedBlit_frame { s with stage := st, out := s.out ++ o } n s.rwd.toNat 1
      (s.graySlots (s.grayRoiAddr n))
    refine ⟨s.graySlots (s.grayRoiAddr n) ++ st.drop (s.graySlots (s.grayRoiAddr n)).length, o ++ o', ?_⟩
    rw [← List.append_assoc]
    exact h'

/-- The commands that write STAGE (10_state.md R21). -/
def isStaged : Instr → Bool
  | .pic => true
  | .pics => true
  | .gray => true
  | .grayroi => true
  | .roi => false
  | .cpyblk => false
  | .swap16 => false
  | .glut => false

/-- An effect changes STAGE, OUT, host memory and RES at most: STAGE only under a staged command, host memory only under CPYBLK, RES
only under SWAP16 and GLUT, and it only appends to OUT, nothing under CPYBLK, SWAP16 and GLUT. -/
theorem commandEffect_frame (i : Instr) (s : State) : ∃ st o m r,
    commandEffect s i = { s with stage := st, out := s.out ++ o, mem := m, res := r } ∧
      (isStaged i = false → st = s.stage) ∧ (i ≠ .cpyblk → m = s.mem) ∧ (i ≠ .swap16 → i ≠ .glut → r = s.res) ∧
      (i = .cpyblk ∨ i = .swap16 ∨ i = .glut → o = []) := by
  cases i with
  | pic =>
    obtain ⟨o, h⟩ := stagedBlit_frame s 0 s.dw.toNat s.dh.toNat (stagePairs (s.cfg.cap / 2) s.picPixel)
    exact ⟨_, o, s.mem, s.res, h, by simp [isStaged]⟩
  | pics =>
    obtain ⟨o, h⟩ := stagedBlit_frame s 0 s.dw.toNat s.dh.toNat s.picsSlots
    exact ⟨_, o, s.mem, s.res, h, by simp [isStaged]⟩
  | gray =>
    obtain ⟨o, h⟩ := stagedBlit_frame s 0 s.dw.toNat s.dh.toNat (s.graySlots s.src.toNat)
    exact ⟨_, o, s.mem, s.res, h, by simp [isStaged]⟩
  | roi => exact ⟨s.stage, _, s.mem, s.res, roiLines_eq s _, by simp⟩
  | grayroi =>
    obtain ⟨st, o, h⟩ := grayRoiLines_frame s s.rht.toNat
    exact ⟨st, o, s.mem, s.res, h, by simp [isStaged]⟩
  | cpyblk => exact ⟨s.stage, [], s.copyRows, s.res, by simp [commandEffect], by simp⟩
  | swap16 => exact ⟨s.stage, [], s.mem, swap16 s.arg, by simp [commandEffect], by simp⟩
  | glut => exact ⟨s.stage, [], s.mem, gray565 s.cfg (s.arg.setWidth 8), by simp [commandEffect], by simp⟩

/-! ### The slots in closed form -/

theorem rowPairs_eq (d : Nat) (f : Nat → Nat → Half) (hd : d % 2 = 0) (h : Nat) :
    ((List.range h).flatMap fun yy => stagePairs (d / 2) fun xx => f xx yy) =
      (List.range (d * h)).map fun j => f ((j % d) ^^^ 1) (j / d) := by
  induction h with
  | zero => simp
  | succ h ih =>
    rw [List.range_succ, List.flatMap_append, ih, Nat.mul_succ, List.range_add, List.map_append]
    congr 1
    simp only [List.flatMap_cons, List.flatMap_nil, List.append_nil, List.map_map]
    rw [stagePairs_eq_map, Nat.mul_div_cancel' (Nat.dvd_of_mod_eq_zero hd)]
    refine List.map_congr_left fun j hj => ?_
    have hj' : j < d := List.mem_range.mp hj
    simp only [Function.comp_apply]
    rw [Nat.mul_add_mod, Nat.mod_eq_of_lt hj', Nat.mul_add_div (by omega), Nat.div_eq_of_lt hj', Nat.add_zero]

/-- The slots PICS writes, in closed form (41_staged_blit.md R105). -/
theorem picsSlots_eq (s : State) (h : s.dw.toNat % 2 = 0) :
    s.picsSlots = (List.range (s.dw.toNat * s.dh.toNat)).map (picsSlot s) := by
  rw [State.picsSlots, rowPairs_eq _ (fun xx yy => s.picsPixel xx yy) h]
  refine List.map_congr_left fun j _ => ?_
  rw [picsPixel_eq, picsSlot]

theorem picSlots_eq (s : State) (h : s.cfg.cap % 2 = 0) :
    stagePairs (s.cfg.cap / 2) s.picPixel = (List.range s.cfg.cap).map (picSlot s) := by
  rw [stagePairs_eq_map, Nat.mul_div_cancel' (Nat.dvd_of_mod_eq_zero h)]
  exact List.map_congr_left fun j _ => by rw [picPixel_eq, picSlot]

theorem graySlots_eq (s : State) (a : Nat) (h : s.cfg.cap % 2 = 0) :
    s.graySlots a = (List.range s.cfg.cap).map (graySlot s a) := by
  rw [State.graySlots, stagePairs_eq_map, Nat.mul_div_cancel' (Nat.dvd_of_mod_eq_zero h)]
  exact List.map_congr_left fun j _ => by rw [grayPixel_eq, graySlot]

/-! ### When no check fails -/

theorem getLsbD_zero_eq {n : Nat} (v : BitVec n) : v.getLsbD 0 = decide (v.toNat % 2 = 1) := by
  rw [BitVec.getLsbD, Nat.testBit_zero]

theorem picUnreadable_iff (s : State) :
    s.readFails (s.readFootprint .pic) = true ↔ Unreadable s.cfg s.src.toNat (2 * s.cfg.cap) := by
  rw [readFails_iff]; simp [State.readFootprint]

theorem grayUnreadable_iff (s : State) :
    s.readFails (s.readFootprint .gray) = true ↔ Unreadable s.cfg s.src.toNat s.cfg.cap := by
  rw [readFails_iff]; simp [State.readFootprint]

theorem picsUnreadable_iff (s : State) : s.readFails (s.readFootprint .pics) = true ↔ PicsUnreadable s := by
  rw [readFails_iff]
  constructor
  · rintro ⟨p, hp, h⟩
    simp only [State.readFootprint, List.mem_flatMap, List.mem_map, List.mem_range] at hp
    obtain ⟨yy, hy, xx, hx, rfl⟩ := hp
    exact ⟨yy, hy, xx, hx, h⟩
  · rintro ⟨yy, hy, xx, hx, h⟩
    refine ⟨⟨s.src.toNat + 2 * s.scaledIndex xx yy, 2⟩, ?_, h⟩
    simp only [State.readFootprint, List.mem_flatMap, List.mem_map, List.mem_range]
    exact ⟨yy, hy, xx, hx, rfl⟩

theorem roiUnreadable_iff (s : State) : s.readFails (s.readFootprint .roi) = true ↔ RoiUnreadable s := by
  rw [readFails_iff]
  constructor
  · rintro ⟨p, hp, h⟩
    simp only [State.readFootprint, List.mem_map, List.mem_range] at hp
    obtain ⟨line, hl, rfl⟩ := hp
    exact ⟨line, hl, h⟩
  · rintro ⟨line, hl, h⟩
    refine ⟨⟨s.roiAddr line, 2 * s.rwd.toNat⟩, ?_, h⟩
    simp only [State.readFootprint, List.mem_map, List.mem_range]
    exact ⟨line, hl, rfl⟩

theorem grayRoiUnreadable_iff (s : State) : s.readFails (s.readFootprint .grayroi) = true ↔ GrayRoiUnreadable s := by
  rw [readFails_iff]
  constructor
  · rintro ⟨p, hp, h⟩
    simp only [State.readFootprint, List.mem_map, List.mem_range] at hp
    obtain ⟨line, hl, rfl⟩ := hp
    exact ⟨line, hl, h⟩
  · rintro ⟨line, hl, h⟩
    refine ⟨⟨s.grayRoiAddr line, s.cfg.cap⟩, ?_, h⟩
    simp only [State.readFootprint, List.mem_map, List.mem_range]
    exact ⟨line, hl, rfl⟩

theorem copyMeet_iff (s : State) :
    footprintsMeet (s.readFootprint .cpyblk) (s.writeFootprint .cpyblk) = true ↔
      ∃ row, row < s.sh.toNat ∧ ∃ b, b < 2 * s.sw.toNat ∧ ∃ row', row' < s.sh.toNat ∧ ∃ b', b' < 2 * s.sw.toNat ∧
        copyFrom s row b = copyTo s row' b' := by
  rw [footprintsMeet_iff]
  simp only [State.readFootprint, State.writeFootprint, List.mem_map, List.mem_range]
  constructor
  · rintro ⟨p, ⟨row, hr, rfl⟩, q, ⟨row', hr', rfl⟩, a, hp, hq⟩
    obtain ⟨b, hb, rfl⟩ := (span_has_iff _ _).mp hp
    obtain ⟨b', hb', he⟩ := (span_has_iff _ _).mp hq
    exact ⟨row, hr, b, hb, row', hr', b', hb', he⟩
  · rintro ⟨row, hr, b, hb, row', hr', b', hb', he⟩
    exact ⟨_, ⟨row, hr, rfl⟩, _, ⟨row', hr', rfl⟩, _, (span_has_iff _ _).mpr ⟨b, hb, rfl⟩,
      (span_has_iff _ _).mpr ⟨b', hb', he⟩⟩

theorem copyOverlaps_iff (s : State) :
    (footprintsMeet (s.readFootprint .cpyblk) (s.writeFootprint .cpyblk) ||
      (decide (2 ≤ s.sh.toNat) && decide (s.dstr.toNat < s.sw.toNat))) = true ↔ CopyOverlaps s := by
  rw [Bool.or_eq_true, copyMeet_iff]
  simp [CopyOverlaps]

theorem copyUnreachable_iff (s : State) :
    (!footprintAll (admitsRead s.cfg) (s.readFootprint .cpyblk) ||
      !footprintAll (admitsWrite s.cfg) (s.writeFootprint .cpyblk)) = true ↔ CopyUnreachable s := by
  have hr : (!footprintAll (admitsRead s.cfg) (s.readFootprint .cpyblk)) = true ↔
      ∃ row, row < s.sh.toNat ∧ Unreadable s.cfg (copyFrom s row 0) (2 * s.sw.toNat) := by
    rw [Bool.not_eq_true', ← Bool.not_eq_true, footprintAll_iff]
    simp only [admitsRead_iff, not_forall, exists_prop, State.readFootprint, List.mem_map, List.mem_range]
    constructor
    · rintro ⟨p, ⟨row, hr, rfl⟩, k, hk, h⟩
      exact ⟨row, hr, k, hk, h⟩
    · rintro ⟨row, hr, k, hk, h⟩
      exact ⟨_, ⟨row, hr, rfl⟩, k, hk, h⟩
  have hw : (!footprintAll (admitsWrite s.cfg) (s.writeFootprint .cpyblk)) = true ↔
      ∃ row, row < s.sh.toNat ∧ Unwritable s.cfg (copyTo s row 0) (2 * s.sw.toNat) := by
    rw [Bool.not_eq_true', ← Bool.not_eq_true, footprintAll_iff]
    simp only [admitsWrite_iff, not_forall, exists_prop, State.writeFootprint, List.mem_map, List.mem_range]
    constructor
    · rintro ⟨p, ⟨row, hr, rfl⟩, k, hk, h⟩
      exact ⟨row, hr, k, hk, h⟩
    · rintro ⟨row, hr, k, hk, h⟩
      exact ⟨_, ⟨row, hr, rfl⟩, k, hk, h⟩
  rw [Bool.or_eq_true, hr, hw]

end Sys2Proof.Machine
end

