-- ==== Sys2Proof/Laws/Checks.lean ====
section
/-! SUPPORT. When the checks of each command pass, in the words of Safety, and the copy of a block. -/

namespace Sys2Proof.Machine

open Sys2Proof.Safety

/-- A word's lowest bit is set or it is even. -/
theorem align_iff (v : Word) : v.getLsbD 0 = true ↔ v.toNat % 2 = 1 := by
  rw [getLsbD_zero_eq, decide_eq_true_eq]

theorem zeroSize_iff (v w : Half) : (v == 0 || w == 0) = true ↔ v = 0 ∨ w = 0 := by simp

theorem picReady_iff (s : State) : firstError (commandChecks s .pic) = none ↔ PicReady s := by
  rw [commandChecks, firstError_none]
  simp only [State.picChecks, List.forall_mem_cons, List.not_mem_nil, false_implies, implies_true, and_true,
    ← Bool.not_eq_true, zeroSize_iff, decide_eq_true_eq, coordFails_iff, align_iff, picUnreadable_iff, not_lt, gt_iff_lt]
  simp only [PicReady, Nat.mod_two_not_eq_one]

theorem picsReady_iff (s : State) : firstError (commandChecks s .pics) = none ↔ PicsReady s := by
  have hz : (s.dw == 0 || s.dh == 0 || s.sw == 0 || s.sh == 0) = true ↔ s.dw = 0 ∨ s.dh = 0 ∨ s.sw = 0 ∨ s.sh = 0 := by
    simp [or_assoc]
  have ho : s.dw.getLsbD 0 = true ↔ s.dw.toNat % 2 = 1 := by rw [getLsbD_zero_eq, decide_eq_true_eq]
  rw [commandChecks, firstError_none]
  simp only [State.picsChecks, List.forall_mem_cons, List.not_mem_nil, false_implies, implies_true, and_true,
    ← Bool.not_eq_true, hz, ho, decide_eq_true_eq, coordFails_iff, align_iff, picsUnreadable_iff, not_lt, gt_iff_lt]
  simp only [PicsReady, Nat.mod_two_not_eq_one]

theorem grayReady_iff (s : State) : firstError (commandChecks s .gray) = none ↔ GrayReady s := by
  rw [commandChecks, firstError_none]
  simp only [State.grayChecks, List.forall_mem_cons, List.not_mem_nil, false_implies, implies_true, and_true,
    ← Bool.not_eq_true, zeroSize_iff, decide_eq_true_eq, coordFails_iff, grayUnreadable_iff, not_lt, gt_iff_lt]

theorem roiReady_iff (s : State) : firstError (commandChecks s .roi) = none ↔ RoiReady s := by
  rw [commandChecks, firstError_none]
  simp only [State.roiChecks, List.forall_mem_cons, List.not_mem_nil, false_implies, implies_true, and_true,
    ← Bool.not_eq_true, zeroSize_iff, coordFails_iff, regionFails_iff, roiUnreadable_iff]

theorem grayRoiReady_iff (s : State) : firstError (commandChecks s .grayroi) = none ↔ GrayRoiReady s := by
  rw [commandChecks, firstError_none]
  simp only [State.grayRoiChecks, List.forall_mem_cons, List.not_mem_nil, false_implies, implies_true, and_true,
    ← Bool.not_eq_true, zeroSize_iff, decide_eq_true_eq, coordFails_iff, regionFails_iff, grayRoiUnreadable_iff, not_lt,
    gt_iff_lt]

theorem copyReady_iff (s : State) : firstError (commandChecks s .cpyblk) = none ↔ CopyReady s := by
  rw [commandChecks, firstError_none]
  simp only [State.copyChecks, List.forall_mem_cons, List.not_mem_nil, false_implies, implies_true, and_true,
    ← Bool.not_eq_true, zeroSize_iff, copyOverlaps_iff, copyUnreachable_iff]

/-! ### Copying a block -/

/-- The first `n` rows of a block copied. -/
def copyRowsTo (s : State) (n : Nat) : Memory :=
  (List.range n).foldl
    (fun m row => Memory.copyRow (s.copySrcAddr row) (s.copyDstAddr row) (2 * s.sw.toNat) m) s.mem

theorem copyRows_eq (s : State) : s.copyRows = copyRowsTo s s.sh.toNat := rfl

theorem copyRowsTo_succ (s : State) (n : Nat) : copyRowsTo s (n + 1) =
    Memory.copyRow (s.copySrcAddr n) (s.copyDstAddr n) (2 * s.sw.toNat) (copyRowsTo s n) := by
  simp [copyRowsTo, List.range_succ]

/-- A byte that no row writes stays. -/
theorem copyRowsTo_read_other (s : State) (n : Nat) {a : Nat}
    (h : ∀ row, row < n → ∀ b, b < 2 * s.sw.toNat → a ≠ copyTo s row b) :
    Memory.read (copyRowsTo s n) a = Memory.read s.mem a := by
  induction n with
  | zero => rfl
  | succ n ih =>
    rw [copyRowsTo_succ]
    exact (copyRow_read_other _ _ _ _ (h n (by omega))).trans (ih fun row hr => h row (by omega))

theorem copyRowsTo_wf (s : State) (n : Nat) (hm : Memory.wf s.mem)
    (h : ∀ row, row < n → ∀ b, b < 2 * s.sw.toNat → copyTo s row b < 0x100000000) : Memory.wf (copyRowsTo s n) := by
  induction n with
  | zero => exact hm
  | succ n ih =>
    rw [copyRowsTo_succ]
    exact copyRow_wf _ _ _ (ih fun row hr => h row (by omega)) (h n (by omega))

/-- Rows of the destination that do not collide (43_copy.md R122). -/
theorem copyTo_ne_of_row_lt (s : State) (h : ¬(2 ≤ s.sh.toNat ∧ s.dstr.toNat < s.sw.toNat)) {r r' b b' : Nat}
    (hr : r < r') (hr' : r' < s.sh.toNat) (hb : b < 2 * s.sw.toNat) : copyTo s r b ≠ copyTo s r' b' := by
  have hd : s.sw.toNat ≤ s.dstr.toNat := by
    by_contra hlt
    exact h ⟨by omega, by omega⟩
  have hmul : s.dstr.toNat * 2 * (s.dy.toNat + (r + 1)) ≤ s.dstr.toNat * 2 * (s.dy.toNat + r') :=
    Nat.mul_le_mul_left _ (by omega)
  have hstep : s.dstr.toNat * 2 * (s.dy.toNat + (r + 1)) = s.dstr.toNat * 2 * (s.dy.toNat + r) + s.dstr.toNat * 2 := by
    rw [← Nat.add_assoc, Nat.mul_succ]
  show s.dst.toNat + s.dstr.toNat * 2 * (s.dy.toNat + r) + s.dx.toNat * 2 + b ≠
    s.dst.toNat + s.dstr.toNat * 2 * (s.dy.toNat + r') + s.dx.toNat * 2 + b'
  omega

/-- The block lands in its place, read from memory as it was before the command (43_copy.md R121). -/
theorem copyRowsTo_read (s : State) (hm : Memory.wf s.mem) (ho : ¬CopyOverlaps s)
    (ha : ∀ row, row < s.sh.toNat → ∀ b, b < 2 * s.sw.toNat → copyTo s row b < 0x100000000) (n : Nat) (hn : n ≤ s.sh.toNat)
    {row b : Nat} (hr : row < n) (hb : b < 2 * s.sw.toNat) :
    Memory.read (copyRowsTo s n) (copyTo s row b) = Memory.read s.mem (copyFrom s row b) := by
  rw [CopyOverlaps, not_or] at ho
  obtain ⟨hdis, hrows⟩ := ho
  induction n with
  | zero => omega
  | succ n ih =>
    have hne : ∀ r r', r < s.sh.toNat → r' < s.sh.toNat → ∀ c, c < 2 * s.sw.toNat → ∀ c', c' < 2 * s.sw.toNat →
        copyFrom s r c ≠ copyTo s r' c' :=
      fun r r' h1 h2 c h3 c' h4 he => hdis ⟨r, h1, c, h3, r', h2, c', h4, he⟩
    rw [copyRowsTo_succ]
    by_cases hrn : row = n
    · subst hrn
      have hwf := copyRowsTo_wf s row hm fun r h => ha r (by omega)
      refine ((copyRow_spec _ _ _ _ hwf (ha row (by omega)) fun b hb b' hb' => ?_).2.1 b hb).trans ?_
      · exact hne row row (by omega) (by omega) b hb b' hb'
      · exact copyRowsTo_read_other s row fun r h c hc => hne row r (by omega) (by omega) b hb c hc
    · rw [copyRow_read_other]
      · exact ih (by omega) (by omega)
      · intro c hc
        exact copyTo_ne_of_row_lt s hrows (by omega) (by omega) hb

theorem writable_of_ready {s : State} (h : CopyReady s) {row b : Nat} (hr : row < s.sh.toNat) (hb : b < 2 * s.sw.toNat) :
    MayWrite s.cfg (copyTo s row b) := by
  by_contra hn
  exact h.2.2 (.inr ⟨row, hr, b, hb, by simpa [copyTo] using hn⟩)

end Sys2Proof.Machine
end

