-- ==== Sys2Proof/Laws/Log.lean ====
section
/-! SUPPORT. The output log: paired logs append to paired logs, and a window followed by data that fills it is one. -/

namespace Sys2Proof.Machine

open Sys2Proof.Safety

theorem logPaired_append (l k : List Event) (hl : logPaired l = true) (hk : logPaired k = true) :
    logPaired (l ++ k) = true := by
  induction l using logPaired.induct with
  | case1 => simpa using hk
  | case2 d rest ih => simp only [logPaired, List.cons_append] at hl ⊢; exact ih hl
  | case3 x1 y1 x2 y2 slots rest ih =>
    simp only [logPaired, List.cons_append, Bool.and_eq_true] at hl ⊢
    exact ⟨hl.1, ih hl.2⟩
  | case4 x1 y1 x2 y2 bytes rest ih =>
    simp only [logPaired, List.cons_append, Bool.and_eq_true] at hl ⊢
    exact ⟨hl.1, ih hl.2⟩
  | case5 x1 y1 x2 y2 tail h1 h2 => simp [logPaired] at hl
  | case6 slots tail => simp [logPaired] at hl
  | case7 bytes tail => simp [logPaired] at hl

theorem logPaired_flatMap (f : Nat → List Event) (n : Nat) (h : ∀ k, k < n → logPaired (f k) = true) :
    logPaired ((List.range n).flatMap f) = true := by
  induction n with
  | zero => rfl
  | succ n ih =>
    rw [List.range_succ, List.flatMap_append]
    exact logPaired_append _ _ (ih fun k hk => h k (by omega)) (by simpa using h n (by omega))

theorem windowArea_of (x y w h : Nat) (hw : 0 < w) (hh : 0 < h) (hx : x + w ≤ 65536) (hy : y + h ≤ 65536) :
    ∃ x1 y1 x2 y2, windowOf x y w h = .window x1 y1 x2 y2 ∧ x1 ≤ x2 ∧ y1 ≤ y2 ∧ windowArea x1 y1 x2 y2 = w * h := by
  refine ⟨_, _, _, _, rfl, ?_, ?_, ?_⟩
  · rw [BitVec.le_def, BitVec.toNat_ofNat, BitVec.toNat_ofNat, Nat.mod_eq_of_lt (by omega), Nat.mod_eq_of_lt (by omega)]
    omega
  · rw [BitVec.le_def, BitVec.toNat_ofNat, BitVec.toNat_ofNat, Nat.mod_eq_of_lt (by omega), Nat.mod_eq_of_lt (by omega)]
    omega
  · unfold windowArea
    simp only [BitVec.toNat_ofNat]
    rw [Nat.mod_eq_of_lt (show x < 2 ^ 16 by omega), Nat.mod_eq_of_lt (show y < 2 ^ 16 by omega),
      Nat.mod_eq_of_lt (show x + w - 1 < 2 ^ 16 by omega), Nat.mod_eq_of_lt (show y + h - 1 < 2 ^ 16 by omega)]
    congr 1 <;> omega

/-- A window inside the panel and the slots that fill it. -/
theorem logPaired_slots {x y w h : Nat} (hw : 0 < w) (hh : 0 < h) (hx : x + w ≤ 65536) (hy : y + h ≤ 65536)
    {slots : List Half} (hs : slots.length = w * h) : logPaired [windowOf x y w h, .data16 slots] = true := by
  obtain ⟨x1, y1, x2, y2, he, h1, h2, ha⟩ := windowArea_of x y w h hw hh hx hy
  simp [he, logPaired, h1, h2, ha, hs]

/-- A window inside the panel and the bytes that fill it. -/
theorem logPaired_bytes {x y w h : Nat} (hw : 0 < w) (hh : 0 < h) (hx : x + w ≤ 65536) (hy : y + h ≤ 65536)
    {bytes : List Byte} (hs : bytes.length = 2 * (w * h)) : logPaired [windowOf x y w h, .data8 bytes] = true := by
  obtain ⟨x1, y1, x2, y2, he, h1, h2, ha⟩ := windowArea_of x y w h hw hh hx hy
  simp [he, logPaired, h1, h2, ha, hs]

/-- A window that passed its check has 16-bit corners (60_exceptions.md R137). -/
theorem window_fits {s : State} (hc : s.cfg.Valid) {w h : Nat} (hp : ¬OutsidePanel s w h) :
    s.dx.toNat + w ≤ 65536 ∧ s.dy.toNat + h ≤ 65536 := by
  have := extent_le s hc
  rw [OutsidePanel, not_or] at hp
  omega

end Sys2Proof.Machine
end

