-- ==== Sys2Proof/Laws/PerInstr.lean ====
section
/-! SUPPORT. What is said of every command, one lemma per constructor. -/

namespace Sys2Proof.Laws.Encoding

/-- The command is well formed and its word decodes to it, under both decoders (30_encoding.md R64). -/
def Statement (i : Instr) : Prop :=
  i.wf = true ∧ decodeWord (encode i) = .ok i ∧ decodeTableWord 32 (encode i).toNat = some i

theorem pic : Statement .pic := ⟨rfl, rfl, rfl⟩
theorem pics : Statement .pics := ⟨rfl, rfl, rfl⟩
theorem roi : Statement .roi := ⟨rfl, rfl, rfl⟩
theorem gray : Statement .gray := ⟨rfl, rfl, rfl⟩
theorem grayroi : Statement .grayroi := ⟨rfl, rfl, rfl⟩
theorem cpyblk : Statement .cpyblk := ⟨rfl, rfl, rfl⟩
theorem swap16 : Statement .swap16 := ⟨rfl, rfl, rfl⟩
theorem glut : Statement .glut := ⟨rfl, rfl, rfl⟩

theorem all (i : Instr) : Statement i := by
  cases i
  exacts [pic, pics, roi, gray, grayroi, cpyblk, swap16, glut]

end Sys2Proof.Laws.Encoding

namespace Sys2Proof

/-- No word is the word of two rows of the opcode map. -/
theorem opRows_disjoint : opRows.Pairwise fun r r' => r.pattern &&& r'.mask ≠ r'.pattern := by decide

theorem decodeWord_encode (i : Instr) : decodeWord (encode i) = .ok i := (Laws.Encoding.all i).2.1

/-- A word that decodes is the word of the command it decodes to (30_encoding.md R64, R65). -/
theorem eq_encode_of_decodeWord {w : Word} {i : Instr} (h : decodeWord w = .ok i) : w = encode i := by
  unfold decodeWord at h
  split at h
  · rename_i r hr
    have hmem := List.mem_of_find?_eq_some hr
    have hp := List.find?_some hr
    injection h with h
    subst h
    simp only [opRows, List.mem_cons, List.not_mem_nil, or_false] at hmem
    have hm : w &&& 0xFFFFFFFF = w := BitVec.and_allOnes
    rcases hmem with rfl | rfl | rfl | rfl | rfl | rfl | rfl | rfl <;>
      · rw [beq_iff_eq, hm] at hp
        exact hp
  · split at h <;> simp at h

/-- A register is found at an offset only if the offset is its own. -/
theorem eq_offset_of_ofOffset {off : Nat} {r : Reg} (h : Reg.ofOffset off = some r) : off = r.offset := by
  unfold Reg.ofOffset at h
  split at h <;> first | (injection h with h; subst h; rfl) | simp at h

theorem ofOffset_offset (r : Reg) : Reg.ofOffset r.offset = some r := by cases r <;> rfl

end Sys2Proof
end

