-- ==== Sys2Proof/Laws/Step.lean ====
section
/-! SUPPORT. All a step can do, said once. -/

namespace Sys2Proof.Machine

open Sys2Proof.Safety

/-- The accesses a step performs, and what each leaves. -/
inductive StepTo (s : State) : State → Prop where
  /-- Nothing pending: idle. -/
  | idle (h : s.pending = []) : StepTo s s
  /-- The word of a command written to CMD. -/
  | command {t : State} (i : Instr) (rest : List HostAccess) (h : s.pending = .write 0 .w32 (encode i) :: rest)
      (ht : exec i { s with pending := rest } = .next t) : StepTo s t
  /-- An illegal word written to CMD. -/
  | illegal (w : Word) (rest : List HostAccess) (h : s.pending = .write 0 .w32 w :: rest) :
      StepTo s ({ s with pending := rest }.raise .op)
  /-- A register other than CMD written. -/
  | write (r : Reg) (v : Word) (rest : List HostAccess) (hr : r ≠ .CMD) (h : s.pending = .write r.offset .w32 v :: rest) :
      StepTo s ({ s with pending := rest }.writeReg r v)
  /-- A reserved offset written. -/
  | reserved (off : Nat) (v : Word) (rest : List HostAccess) (h : s.pending = .write off .w32 v :: rest) :
      StepTo s { s with pending := rest }
  /-- A register read. -/
  | read (off : Nat) (rest : List HostAccess) (h : s.pending = .read off .w32 :: rest) :
      StepTo s { s with pending := rest, replies := s.replies ++ [.reg (s.readOffset off)] }
  /-- A byte stored by the host. -/
  | store (a : Nat) (v : Byte) (rest : List HostAccess) (ha : a < 0x100000000) (h : s.pending = .store a v :: rest) :
      StepTo s { s with pending := rest, mem := Memory.write s.mem a v }
  /-- A byte loaded by the host. -/
  | load (a : Nat) (rest : List HostAccess) (h : s.pending = .load a :: rest) :
      StepTo s { s with pending := rest, replies := s.replies ++ [.byte (Memory.read s.mem a)] }
  /-- A reset. -/
  | reset (rest : List HostAccess) (h : s.pending = .reset :: rest) : StepTo s ({ s with pending := rest }.hostReset)

theorem accessRefusal_none {off : Nat} {width : AccessWidth} :
    accessRefusal off width = none ↔ off < 0x100 ∧ width = .w32 ∧ off % 4 = 0 := by
  unfold accessRefusal
  split
  · simp; omega
  · split
    · simp; intro _ h; contradiction
    · split
      · simp; intros; omega
      · simp_all

/-- What a write to CMD does. -/
theorem writeCmd_cases (w : Word) (s : State) :
    (∃ i, w = encode i ∧ writeCmd w s = exec i s) ∨ writeCmd w s = .next (s.raise .op) := by
  unfold writeCmd
  cases h : decodeWord w with
  | ok i => exact .inl ⟨i, eq_encode_of_decodeWord h, rfl⟩
  | error e => exact .inr rfl

/-! ### Single accesses -/

theorem step_of_pending {s : State} {a : HostAccess} {rest : List HostAccess} (h : s.pending = a :: rest) :
    step s = hostAccess a { s with pending := rest } := by
  simp [step, h]

/-- A register other than CMD written. -/
theorem hostAccess_wr (s : State) {r : Reg} (v : Word) (h : r ≠ .CMD) :
    hostAccess (wr r v) s = .next (s.writeReg r v) := by
  cases r <;> first | rfl | exact absurd rfl h

/-- A register read. -/
theorem hostAccess_rd (s : State) (r : Reg) :
    hostAccess (rd r) s = .next { s with replies := s.replies ++ [.reg (s.readReg r)] } := by
  cases r <;> rfl

/-- A command issued. -/
theorem hostAccess_cmd (s : State) (i : Instr) : hostAccess (cmd i) s = exec i s := by
  cases i <;> rfl

/-! ### Runs -/

@[simp] theorem runSteps_zero (s : State) : runSteps 0 s = .next s := rfl

theorem runSteps_next {n : Nat} {s t : State} (h : step s = .next t) : runSteps (n + 1) s = runSteps n t := by
  simp only [runSteps, h]

theorem runSteps_fault {n : Nat} {s : State} {r : Fault} (h : step s = .fault r) : runSteps (n + 1) s = .fault r := by
  simp only [runSteps, h]

theorem runSteps_refused {n : Nat} {s : State} {r : Refusal} (h : step s = .refused r) :
    runSteps (n + 1) s = .refused r := by
  simp only [runSteps, h]

/-- A run is the run of the host's interface. -/
theorem core_run_eq (n : Nat) (s : State) : Sys2Proof.core.run n s = runSteps n s := by
  induction n generalizing s with
  | zero => rfl
  | succ n ih =>
    have hstep : Sys2Proof.core.step s = step s := rfl
    cases h : step s with
    | next t => rw [runSteps_next h, ← ih t]; simp only [Host.Core.run, hstep, h]
    | fault r => rw [runSteps_fault h]; simp only [Host.Core.run, hstep, h]; rfl
    | refused r => rw [runSteps_refused h]; simp only [Host.Core.run, hstep, h]; rfl

/-- A register write of a run. -/
theorem runSteps_wr {n : Nat} {s : State} {r : Reg} {v : Word} {rest : List HostAccess} (h : s.pending = wr r v :: rest)
    (hr : r ≠ .CMD) : runSteps (n + 1) s = runSteps n ({ s with pending := rest }.writeReg r v) :=
  runSteps_next ((step_of_pending h).trans (hostAccess_wr _ v hr))

/-- A register read of a run. -/
theorem runSteps_rd {n : Nat} {s : State} {r : Reg} {rest : List HostAccess} (h : s.pending = rd r :: rest) :
    runSteps (n + 1) s =
      runSteps n { s with pending := rest, replies := s.replies ++ [.reg (s.readReg r)] } := by
  have hr : State.readReg { s with pending := rest } r = s.readReg r := by cases r <;> rfl
  rw [runSteps_next ((step_of_pending h).trans (hostAccess_rd _ r)), hr]

/-! ### All a step can do -/

/-- All a step that answers a next state can have done. -/
theorem step_cases {s t : State} (h : step s = .next t) : StepTo s t := by
  unfold step at h
  split at h
  · rename_i hp
    injection h with h; subst h
    exact .idle hp
  · rename_i a rest hp
    cases a with
    | write off width v =>
      simp only [hostAccess] at h
      split at h
      · cases h
      · rename_i hr
        obtain ⟨-, rfl, -⟩ := accessRefusal_none.mp hr
        unfold writeOffset at h
        split at h
        · rename_i ho
          have : off = 0 := eq_offset_of_ofOffset ho
          subst this
          rcases writeCmd_cases v { s with pending := rest } with ⟨i, rfl, he⟩ | he
          · exact .command i rest hp (he ▸ h)
          · rw [he] at h
            injection h with h; subst h
            exact .illegal v rest hp
        · rename_i r hc ho
          injection h with h; subst h
          refine .write r v rest (fun he => hc (he ▸ rfl)) ?_
          rw [← eq_offset_of_ofOffset ho]; exact hp
        · injection h with h; subst h
          exact .reserved off v rest hp
    | read off width =>
      simp only [hostAccess] at h
      split at h
      · cases h
      · rename_i hr
        obtain ⟨-, rfl, -⟩ := accessRefusal_none.mp hr
        injection h with h; subst h
        exact .read off rest hp
    | store a v =>
      simp only [hostAccess, hostStore] at h
      split at h
      · cases h
      · split at h
        · cases h
        · injection h with h; subst h
          exact .store a v rest (by omega) hp
    | load a =>
      simp only [hostAccess, hostLoad] at h
      split at h
      · cases h
      · split at h
        · cases h
        · injection h with h; subst h
          exact .load a rest hp
    | reset =>
      simp only [hostAccess] at h
      injection h with h; subst h
      exact .reset rest hp

end Sys2Proof.Machine
end

