-- ==== Sys2Proof/Tests/Slice0.lean ====
section
/-! SUPPORT. Tests of the model: ill-formed terms, words and values from spec/, and for every statement with hypotheses a
concrete state that meets them. Expected values come from spec/95_test_vectors.md; a test names its vector. -/

namespace Sys2Proof.Tests

open Sys2Proof Sys2Proof.Machine Sys2Proof.Safety

-- One theorem at a time: checked side by side, these many small ones take a thread each.
set_option Elab.async false

/-! ### Small states: the configurations of 95_test_vectors.md section 0 -/

/-- The table TG. -/
def rampTG : Vector Half 64 :=
  Vector.ofFn fun k : Fin 64 => BitVec.ofNat 16 ((k.val ^^^ 0x2A) * 256 + k.val)

/-- A panel of the given size, everything else as section 0 gives it. -/
def panel (w h : Nat) : Config :=
  { xMax := w, yMax := h, grayRamp := rampTG, axisSwapMask := 0x20, regBase := 0x40000000
    memmap := [⟨0x80000000, 0x10000, true, true⟩] }

/-- Configuration T8. -/
def t8 : Config := panel 4 2

/-- Host memory holding `bytes` from `a` on. -/
def place (a : Nat) : List Byte → Memory → Memory
  | [], m => m
  | b :: rest, m => place (a + 1) rest (Memory.write m a b)

/-- T8 after reset with known slots in STAGE and the given bytes at S = 0x80001000. -/
def at8 (bytes : List Byte) : State :=
  { State.resetOf t8 with stage := List.replicate 8 0x5555, mem := place 0x80001000 bytes [], src := 0x80001000 }

/-- What a next state shows. -/
def view {α : Type} (f : State → α) : Host.Outcome State Fault Refusal → Option α
  | .next t => some (f t)
  | .fault _ => none
  | .refused _ => none

/-- The reason an outcome is a refusal. -/
def refusal : Host.Outcome State Fault Refusal → Option Refusal
  | .next _ => none
  | .fault _ => none
  | .refused r => some r

/-- The reason an outcome is a fault. -/
def faultOf : Host.Outcome State Fault Refusal → Option Fault
  | .next _ => none
  | .fault r => some r
  | .refused _ => none

/-- OUT and CODE. -/
def outCode (t : State) : List Event × Byte := (t.out, t.code)

/-- STATUS, with everything else of a failed command. -/
def failed (t s : State) : Bool := decide (t = { s with code := t.code, sticky := true })

/-! ### Ill-formed terms, one for each check -/

theorem test_narrow_access_ill_formed : (HostAccess.write 0x10 .w8 0).wf = false := by decide
theorem test_misaligned_access_ill_formed : (HostAccess.read 0x12 .w32).wf = false := by decide
theorem test_access_outside_block_ill_formed : (HostAccess.write 0x100 .w32 0).wf = false := by decide
theorem test_store_above_memory_ill_formed : (HostAccess.store 0x100000000 0).wf = false := by decide
theorem test_load_above_memory_ill_formed : (HostAccess.load 0x100000000).wf = false := by decide
theorem test_access_well_formed : (HostAccess.write 0xFC .w32 0).wf = true ∧ (HostAccess.load 0xFFFFFFFF).wf = true := by
  decide

theorem test_panel_without_columns_invalid : ¬(panel 0 2).Valid := by decide +kernel
theorem test_panel_too_high_invalid : ¬(panel 2 65537).Valid := by decide +kernel
theorem test_odd_capacity_invalid : ¬(panel 3 1).Valid := by decide +kernel
theorem test_two_swap_bits_invalid : ¬Config.Valid { t8 with axisSwapMask := 0x30 } := by decide +kernel
theorem test_unaligned_block_invalid : ¬Config.Valid { t8 with regBase := 0x40000010 } := by decide +kernel
theorem test_t8_valid : t8.Valid := by decide +kernel

/-! ### Decoding: the words of 30_encoding.md R64 and of section 2.2 -/

theorem test_decode_pic : decodeTableWord 32 0b00000000000000000000000000000001 = some .pic := by decide
theorem test_decode_pics : decodeTableWord 32 0b00000000000000000000000000000010 = some .pics := by decide
theorem test_decode_roi : decodeTableWord 32 0b00000000000000000000000000000011 = some .roi := by decide
theorem test_decode_gray : decodeTableWord 32 0b00000000000000000000000000000100 = some .gray := by decide
theorem test_decode_grayroi : decodeTableWord 32 0b00000000000000000000000000000101 = some .grayroi := by decide
theorem test_decode_cpyblk : decodeTableWord 32 0b00000000000000000000000000000110 = some .cpyblk := by decide
theorem test_decode_swap16 : decodeTableWord 32 0b00000000000000000000000000000111 = some .swap16 := by decide
theorem test_decode_glut : decodeTableWord 32 0b00000000000000000000000000001000 = some .glut := by decide
/-- V-OP-1 to V-OP-5. -/
theorem test_decode_illegal : ([0, 9, 0xFF, 0x107, 0x80000001].map (decodeTableWord 32)) = List.replicate 5 none := by decide

/-- Every command word placed after reset is the command that the next step runs, to a next state. -/
theorem test_fetch_after_reset : ∀ w ∈ [1, 2, 3, 4, 5, 6, 7, 8],
    (view (fun t => (t.code, t.pending)) (step (State.reset.withFetchWord 32 w))).isSome = true := by decide

/-! ### SWAP16 and GLUT -/

/-- V-SW-1, V-SW-6. -/
theorem test_swap16 :
    (view State.res (exec .swap16 { at8 [] with arg := 0x1234 }), view State.res (exec .swap16 { at8 [] with arg := 0x8001 })) =
      (some 0x3412, some 0x0180) := by decide
/-- V-GL-5, V-GL-6. -/
theorem test_glut :
    (view State.res (exec .glut { at8 [] with arg := 0x0080 }), view State.res (exec .glut { at8 [] with arg := 0xAB07 })) =
      (some 0x0A20, some 0x2B01) := by decide +kernel

/-! ### The blit commands -/

/-- The source of section 2.4. -/
def picSource : List Byte := [0x10, 0x11, 0x12, 0x13, 0x14, 0x15, 0x16, 0x17, 0x18, 0x19, 0x1A, 0x1B, 0x1C, 0x1D, 0x1E, 0x1F]

/-- V-PIC-3, and STAGE as section 2.4 gives it. -/
theorem test_pic : view (fun t => (outCode t, t.stage)) (exec .pic { at8 picSource with dw := 3, dh := 1 }) =
    some (([.window 0 0 2 0, .data16 [0x1213, 0x1011, 0x1617]], 0),
      [0x1213, 0x1011, 0x1617, 0x1415, 0x1A1B, 0x1819, 0x1E1F, 0x1C1D]) := by decide +kernel
/-- V-PIC-13: CAP pixels are read, however small the picture. -/
theorem test_pic_reads_cap_pixels :
    view (fun t => (t.code, failed t { at8 picSource with dw := 2, dh := 1, src := 0x8000FFF8 }))
      (exec .pic { at8 picSource with dw := 2, dh := 1, src := 0x8000FFF8 }) = some (9, true) := by decide +kernel

/-- V-PICS-3. -/
theorem test_pics : view outCode (exec .pics { at8 [0x00, 0x01, 0x01, 0x02, 0x02, 0x03, 0x03, 0x04, 0x04, 0x05, 0x05, 0x06, 0x06,
      0x07, 0x07, 0x08] with dw := 2, dh := 1, sw := 4, sh := 2 }) =
    some ([.window 0 0 1 0, .data16 [0x0203, 0x0001]], 0) := by decide +kernel
/-- V-PICS-1: slots 4 to 7 keep their values. -/
theorem test_pics_stage :
    view State.stage (exec .pics { at8 [0x34, 0x12, 0xCD, 0xAB, 0xFF, 0x00, 0x01, 0x80] with dw := 2, dh := 2, sw := 2, sh := 2 }) =
      some [0xCDAB, 0x3412, 0x0180, 0xFF00, 0x5555, 0x5555, 0x5555, 0x5555] := by decide +kernel

/-- The source of section 2.6. -/
def graySource : List Byte := [0x00, 0x03, 0x04, 0xFF, 0x80, 0x7F, 0x10, 0xFC, 0x40]

/-- V-GRAY-1. -/
theorem test_gray : view (fun t => (outCode t, t.stage)) (exec .gray { at8 graySource with dw := 4, dh := 2 }) =
    some (([.window 0 0 3 1, .data16 [0x2A00, 0x2A00, 0x153F, 0x2B01, 0x351F, 0x0A20, 0x153F, 0x2E04]], 0),
      [0x2A00, 0x2A00, 0x153F, 0x2B01, 0x351F, 0x0A20, 0x153F, 0x2E04]) := by decide +kernel
/-- V-GRAY-3: an odd address is legal. -/
theorem test_gray_odd_address : view outCode (exec .gray { at8 graySource with dw := 2, dh := 1, src := 0x80001001 }) =
    some ([.window 0 0 1 0, .data16 [0x2B01, 0x2A00]], 0) := by decide +kernel

/-- The source of section 2.7. -/
def roiSource : List Byte := [0x00, 0x01, 0x02, 0x03, 0x04, 0x05, 0x06, 0x07, 0x10, 0x11, 0x12, 0x13, 0x14, 0x15, 0x16, 0x17]

/-- V-ROI-1. -/
theorem test_roi : view outCode (exec .roi { at8 roiSource with dx := 1, sw := 4, sh := 2, rx := 1, rwd := 2, rht := 2 }) =
    some ([.window 1 0 2 0, .data8 [0x02, 0x03, 0x04, 0x05], .window 1 1 2 1, .data8 [0x12, 0x13, 0x14, 0x15]], 0) := by
  decide +kernel
/-- V-ROI-11: no event of an earlier line either. -/
theorem test_roi_all_or_nothing :
    view outCode (exec .roi { at8 roiSource with sw := 4, sh := 2, rwd := 4, rht := 2, src := 0x8000FFF8 }) = some ([], 9) := by
  decide +kernel

/-- The source of section 2.8. -/
def grayRoiSource : List Byte := [0x00, 0x04, 0x08, 0x0C, 0x10, 0x14, 0x18, 0x1C, 0x20, 0x24, 0x28, 0x2C, 0x30, 0x34]

/-- V-GROI-1. -/
theorem test_grayroi : view (fun t => (outCode t, t.stage))
      (exec .grayroi { at8 grayRoiSource with dx := 1, sw := 4, sh := 2, rx := 1, rwd := 2, rht := 2 }) =
    some (([.window 1 0 2 0, .data16 [0x2802, 0x2B01], .window 1 1 2 1, .data16 [0x2C06, 0x2F05]], 0),
      [0x2C06, 0x2F05, 0x2208, 0x2D07, 0x200A, 0x2309, 0x260C, 0x210B]) := by decide +kernel
/-- V-GROI-2: an odd count takes its last value from one sample past the region. -/
theorem test_grayroi_odd_width :
    view outCode (exec .grayroi { at8 grayRoiSource with sw := 4, sh := 2, ry := 1, rwd := 3, rht := 1 }) =
      some ([.window 0 0 2 0, .data16 [0x2F05, 0x2E04, 0x2D07]], 0) := by decide +kernel

/-! ### CPYBLK -/

/-- The source of section 2.9, the destination at D. -/
def copyState : State :=
  { at8 [0xA0, 0xA1, 0xA2, 0xA3, 0xB0, 0xB1, 0xB2, 0xB3] with dst := 0x80002000, dstr := 4, sstr := 2, sw := 2, sh := 2, dx := 1 }

/-- V-CPY-1. -/
theorem test_cpyblk : view (fun t => (Memory.bytes t.mem 0x80002000 16, t.code)) (exec .cpyblk copyState) =
    some ([0, 0, 0xA0, 0xA1, 0xA2, 0xA3, 0, 0, 0, 0, 0xB0, 0xB1, 0xB2, 0xB3, 0, 0], 0) := by decide +kernel
/-- V-CPY-12: addresses do not wrap. -/
theorem test_cpyblk_no_wrap :
    view (fun t => (t.code, decide (t.mem = copyState.mem)))
      (exec .cpyblk { copyState with dstr := 0xFFFF, dy := 0xFFFF, dx := 0, sw := 1, sh := 1 }) = some (9, true) := by
  decide +kernel

/-! ### Register access -/

/-- A run over the given accesses from T8 after reset. -/
def host8 (l : List HostAccess) : Host.Outcome State Fault Refusal := runSteps l.length { at8 [] with src := 0, pending := l }

/-- V-RG-3, V-RG-10. -/
theorem test_orient : view (fun t => (t.replies, t.out)) (host8 [wr .ORIENT 0x1A5, rd .ORIENT, rd .EXTENT, wr .ORIENT 0x20]) =
    some ([.reg 0xA5, .reg 0x00030001], [.orient 0xA5, .orient 0x20]) := by decide +kernel
/-- V-RG-5 to V-RG-7. -/
theorem test_reserved_and_read_only :
    view State.replies (host8 [.write 0x50 .w32 0xFFFFFFFF, .read 0x50 .w32, wr .EXTENT 0xFFFFFFFF, rd .EXTENT, rd .CMD]) =
      some [.reg 0, .reg 0x00010003, .reg 0] := by decide +kernel
/-- V-RG-8, V-RG-9. -/
theorem test_status :
    view State.replies (host8 [.write 0 .w32 9, wr .STATUS 0xFF, rd .STATUS, wr .STATUS 0x100, rd .STATUS]) =
      some [.reg 0x101, .reg 0x1] := by decide +kernel

/-- 30_encoding.md R62a, 20_memory.md R40. -/
theorem test_stops :
    [refusal (host8 [.write 0x100 .w32 0]), refusal (host8 [.read 0x10 .w8]), refusal (host8 [.read 0x12 .w32])] =
      [some .outsideBlock, some .narrowAccess, some .misalignedOffset] ∧
    faultOf (host8 [.load 0x100000000]) = some .noSuchAddress := by decide +kernel

/-! ### Concrete states that meet the hypotheses of the statements -/

/-- T8 with accesses pending. -/
def queued (l : List HostAccess) : State := { at8 [] with pending := l }

theorem witness_RegisterMapRoundTrip :
    Reg.ofOffset 0x00 = some .CMD ∧ Reg.ofOffset 0x4C = some .RES ∧ 0x50 ≤ 0x50 ∧ Reg.ofOffset 0x50 = none := by decide

theorem witness_StepRunsDecodedCommand :
    (queued [.write 0x00 .w32 8, .load 0]).pending = .write 0x00 .w32 8 :: [.load 0] ∧
      (decodeTableWord 32 8 = some .glut ∧ decodeWord 8 = .ok .glut) := ⟨rfl, by decide, rfl⟩

theorem witness_FetchWordRunsCommand : ∀ i : Instr, i.wf = true := by intro i; cases i <;> decide

theorem witness_IllegalWordEndsWithEOp :
    ((queued [.write 0x00 .w32 0]).pending = .write 0x00 .w32 0 :: [] ∧ (0#32).toNat = 0) ∧
    ((queued [.write 0x00 .w32 9]).pending = .write 0x00 .w32 9 :: [] ∧ 8 < (9#32).toNat) := by decide +kernel

theorem witness_IdleKeepsAllState : (at8 []).pending = [] := rfl

theorem witness_RunEndsWithQueueEmpty : ∀ a ∈ (queued [.write 0xFC .w32 0, .read 0x00 .w32, .store 0xFFFFFFFF 1,
    .load 0x3FFFFFFF, .load 0x40000100, .reset]).pending, Performable t8 a := by
  intro a ha
  simp only [queued, List.mem_cons, List.not_mem_nil, or_false] at ha
  rcases ha with rfl | rfl | rfl | rfl | rfl | rfl <;> trivial

theorem witness_RegisterReadHasNoSideEffect : ∀ off ∈ [0x00, 0x04, 0x08, 0x0C, 0x10, 0x14, 0x18, 0x1C, 0x20, 0x24, 0x28, 0x2C,
    0x30, 0x34, 0x38, 0x3C, 0x40, 0x44, 0x48, 0x4C, 0x50, 0xFC],
    (queued [.read off .w32]).pending = .read off .w32 :: [] ∧ off % 4 = 0 ∧ off < 0x100 := by decide +kernel

theorem witness_RegisterHoldsItsLowBits : ∀ r ∈ [Reg.DX, .SRC, .ARG, .ORIENT],
    (isOperand r = true ∨ r = .ORIENT) ∧ (queued [wr r 0x12345678, rd r]).pending = wr r 0x12345678 :: rd r :: [] := by
  decide +kernel

theorem witness_OperandWriteHasNoAlias :
    isOperand .DSTR = true ∧ (queued [wr .DSTR 0xFFFFFFFF]).pending = wr .DSTR 0xFFFFFFFF :: [] := by decide +kernel

theorem witness_ReadOnlyWriteIgnored : ∀ off ∈ [0x0C, 0x4C, 0x50, 0xFC],
    (queued [.write off .w32 1]).pending = .write off .w32 1 :: [] ∧ off % 4 = 0 ∧ off < 0x100 ∧ (off = 0x0C ∨ 0x4C ≤ off) := by
  decide +kernel

theorem witness_StatusWriteClearsSticky :
    (queued [.write 0x04 .w32 0x100]).pending = .write 0x04 .w32 0x100 :: [] ∧
      (queued [.write 0x04 .w32 0xFF]).pending = .write 0x04 .w32 0xFF :: [] := by decide +kernel

theorem witness_OrientWriteEmits : (queued [.write 0x08 .w32 0x1A5]).pending = .write 0x08 .w32 0x1A5 :: [] := rfl

theorem witness_ExtentFollowsOrientation :
    t8.Valid ∧ t8.axisSwapMask = 1#8 <<< (5 : Fin 8).val ∧ (at8 []).orient.getLsbD 5 = false ∧
      (State.orient { at8 [] with orient := 0x20 }).getLsbD 5 = true ∧
      (queued [.write 0x0C .w32 1]).pending = .write 0x0C .w32 1 :: [] := by decide +kernel

theorem witness_OtherRegisterAccessRefused :
    (queued [.write 0x100 .w32 0]).pending = .write 0x100 .w32 0 :: [] ∧
    ((queued [.read 0xFF .w8]).pending = .read 0xFF .w8 :: [] ∧ AccessWidth.w8 ≠ .w32) ∧
    ((queued [.read 0xFE .w32]).pending = .read 0xFE .w32 :: [] ∧ 0xFE % 4 ≠ 0) := by decide +kernel

theorem witness_HostStoreThenLoad : ∀ a ∈ [0x100000000, 0xFFFFFFFF, 0x3FFFFFFF, 0x40000100],
    (queued [.store a 7, .load a]).pending = .store a 7 :: .load a :: [] ∧ Memory.wf (queued []).mem ∧
      (2 ^ 32 ≤ a ∨ (a < 2 ^ 32 ∧ ¬(t8.regBase.toNat ≤ a ∧ a < t8.regBase.toNat + 256))) := by decide +kernel

theorem witness_ResetValues : t8.Valid ∧ Reg.RES ≠ .EXTENT ∧ ∀ i ∈ [Instr.pic, .pics, .roi, .gray, .grayroi, .cpyblk],
    i ≠ .swap16 ∧ i ≠ .glut := by decide +kernel

theorem witness_HostResetKeepsMemory :
    State.cfg (queued [.reset]) = t8 ∧ t8.Valid ∧ (queued [.reset]).pending = .reset :: [] := by decide +kernel

theorem witness_ScalarCallsAnswer :
    (queued (callAccesses (.swap16 0x1234))).pending = callAccesses (.swap16 0x1234) ++ [] ∧
      (queued (callAccesses (.grayRamp 0xFF))).pending = callAccesses (.grayRamp 0xFF) ++ [] := by decide +kernel

theorem witness_CallsProgramTheirRegisters :
    (queued (callAccesses (.drawPicture 0 0 4 2 5))).pending = callAccesses (.drawPicture 0 0 4 2 5) ++ [] ∧
    (queued (callAccesses (.drawPictureScaled 0 0 4 2 2 1 5))).pending =
      callAccesses (.drawPictureScaled 0 0 4 2 2 1 5) ++ [] ∧
    (queued (callAccesses (.drawPictureRegionOfInterest 0 0 4 2 0 0 1 1 5))).pending =
      callAccesses (.drawPictureRegionOfInterest 0 0 4 2 0 0 1 1 5) ++ [] ∧
    (queued (callAccesses (.drawGrayscale 0 0 4 2 5))).pending = callAccesses (.drawGrayscale 0 0 4 2 5) ++ [] ∧
    (queued (callAccesses (.drawGrayscaleRegionOfInterest 0 0 4 2 0 0 1 1 5))).pending =
      callAccesses (.drawGrayscaleRegionOfInterest 0 0 4 2 0 0 1 1 5) ++ [] ∧
    (queued (callAccesses (.copyRawBlock 5 4 9 2 2 2 0 0))).pending = callAccesses (.copyRawBlock 5 4 9 2 2 2 0 0) ++ [] := by
  decide +kernel

/-! ### Operands that pass the checks, at the edge of the panel and of readable memory -/

theorem witness_PicResult :
    (let s := { at8 [] with dx := 2, dw := 2, dh := 1, src := 0x8000FFF0 };
      s.cfg.Valid ∧ s.stage.length = s.cfg.cap ∧ PicReady s) ∧
    (let s := { at8 [] with dw := 4, dh := 2 }; s.cfg.Valid ∧ s.stage.length = s.cfg.cap ∧ PicReady s) := by decide +kernel

theorem witness_PicsResult :
    let s := { at8 [] with dw := 2, dh := 1, sw := 2, sh := 1, src := 0x8000FFFC }
    s.cfg.Valid ∧ s.stage.length = s.cfg.cap ∧ PicsReady s := by decide +kernel

theorem witness_GrayResult :
    let s := { at8 [] with dw := 1, dh := 1, src := 0x8000FFF8 }
    s.cfg.Valid ∧ s.stage.length = s.cfg.cap ∧ GrayReady s := by decide +kernel

theorem witness_RoiResult : RoiReady { at8 [] with dx := 3, dy := 1, sw := 4, sh := 2, rx := 3, ry := 1, rwd := 1, rht := 1 } ∧
    RoiReady { at8 [] with sw := 4, sh := 2, rwd := 4, rht := 2 } := by decide +kernel

theorem witness_GrayRoiResult :
    (let s := { at8 [] with sw := 4, sh := 2, ry := 1, rwd := 2, rht := 1, src := 0x8000FFF4 };
      s.cfg.Valid ∧ s.stage.length = s.cfg.cap ∧ GrayRoiReady s) ∧
    (let s := { at8 [] with sw := 4, sh := 2, rwd := 4, rht := 2 };
      s.cfg.Valid ∧ s.stage.length = s.cfg.cap ∧ GrayRoiReady s) := by decide +kernel

/-- V-CPY-1 and V-CPY-9. -/
theorem witness_CpyblkResult : Memory.wf copyState.mem ∧ CopyReady copyState ∧
    (1 < copyState.sh.toNat ∧ 3 < 2 * copyState.sw.toNat ∧
      ∀ row, row < copyState.sh.toNat → ∀ b, b < 2 * copyState.sw.toNat → 0x80002006 ≠ copyTo copyState row b) ∧
    CopyReady { copyState with dst := 0x80001000, dstr := 2, sh := 1, dx := 2 } := by decide +kernel

/-! ### Operands that fail each check, none before it -/

/-- V-PIC-6, 8, 9, 12, 13. -/
theorem witness_PicErrors :
    (let s := { at8 [] with dh := 2, src := 0x80001001 }; s.dw = 0 ∨ s.dh = 0) ∧
    (let s := { at8 [] with dw := 5, dh := 2 }; ¬(s.dw = 0 ∨ s.dh = 0) ∧ s.cfg.cap < s.dw.toNat * s.dh.toNat) ∧
    (let s := { at8 [] with dx := 3, dw := 2, dh := 1 };
      ¬(s.dw = 0 ∨ s.dh = 0) ∧ ¬s.cfg.cap < s.dw.toNat * s.dh.toNat ∧ OutsidePanel s s.dw.toNat s.dh.toNat) ∧
    (let s := { at8 [] with dw := 2, dh := 1, src := 0x80001001 };
      ¬(s.dw = 0 ∨ s.dh = 0) ∧ ¬s.cfg.cap < s.dw.toNat * s.dh.toNat ∧ ¬OutsidePanel s s.dw.toNat s.dh.toNat ∧
        s.src.toNat % 2 = 1) ∧
    (let s := { at8 [] with dw := 2, dh := 1, src := 0x8000FFF8 };
      ¬(s.dw = 0 ∨ s.dh = 0) ∧ ¬s.cfg.cap < s.dw.toNat * s.dh.toNat ∧ ¬OutsidePanel s s.dw.toNat s.dh.toNat ∧
        ¬s.src.toNat % 2 = 1 ∧ Unreadable s.cfg s.src.toNat (2 * s.cfg.cap)) := by decide +kernel

/-- V-PICS-9, 10, 11, 12, 13, 14. -/
theorem witness_PicsErrors :
    (let s := { at8 [] with dw := 3, sw := 2, sh := 1 }; s.dw = 0 ∨ s.dh = 0 ∨ s.sw = 0 ∨ s.sh = 0) ∧
    (let s := { at8 [] with dw := 5, dh := 2, sw := 2, sh := 1 };
      ¬(s.dw = 0 ∨ s.dh = 0 ∨ s.sw = 0 ∨ s.sh = 0) ∧ s.dw.toNat % 2 = 1) ∧
    (let s := { at8 [] with dw := 4, dh := 3, sw := 2, sh := 1 };
      ¬(s.dw = 0 ∨ s.dh = 0 ∨ s.sw = 0 ∨ s.sh = 0) ∧ ¬s.dw.toNat % 2 = 1 ∧ s.cfg.cap < s.dw.toNat * s.dh.toNat) ∧
    (let s := { at8 [] with dx := 1, dw := 4, dh := 1, sw := 2, sh := 1 };
      ¬(s.dw = 0 ∨ s.dh = 0 ∨ s.sw = 0 ∨ s.sh = 0) ∧ ¬s.dw.toNat % 2 = 1 ∧ ¬s.cfg.cap < s.dw.toNat * s.dh.toNat ∧
        OutsidePanel s s.dw.toNat s.dh.toNat) ∧
    (let s := { at8 [] with dw := 2, dh := 1, sw := 2, sh := 1, src := 0x80001001 };
      ¬(s.dw = 0 ∨ s.dh = 0 ∨ s.sw = 0 ∨ s.sh = 0) ∧ ¬s.dw.toNat % 2 = 1 ∧ ¬s.cfg.cap < s.dw.toNat * s.dh.toNat ∧
        ¬OutsidePanel s s.dw.toNat s.dh.toNat ∧ s.src.toNat % 2 = 1) ∧
    (let s := { at8 [] with dw := 2, dh := 1, sw := 2, sh := 1, src := 0x8000FFFE };
      ¬(s.dw = 0 ∨ s.dh = 0 ∨ s.sw = 0 ∨ s.sh = 0) ∧ ¬s.dw.toNat % 2 = 1 ∧ ¬s.cfg.cap < s.dw.toNat * s.dh.toNat ∧
        ¬OutsidePanel s s.dw.toNat s.dh.toNat ∧ ¬s.src.toNat % 2 = 1 ∧ PicsUnreadable s) := by decide +kernel

/-- V-GRAY-4 to V-GRAY-7. -/
theorem witness_GrayErrors :
    (let s := { at8 [] with dh := 1 }; s.dw = 0 ∨ s.dh = 0) ∧
    (let s := { at8 [] with dw := 3, dh := 3 }; ¬(s.dw = 0 ∨ s.dh = 0) ∧ s.cfg.cap < s.dw.toNat * s.dh.toNat) ∧
    (let s := { at8 [] with dy := 1, dw := 1, dh := 2 };
      ¬(s.dw = 0 ∨ s.dh = 0) ∧ ¬s.cfg.cap < s.dw.toNat * s.dh.toNat ∧ OutsidePanel s s.dw.toNat s.dh.toNat) ∧
    (let s := { at8 [] with dw := 1, dh := 1, src := 0x8000FFF9 };
      ¬(s.dw = 0 ∨ s.dh = 0) ∧ ¬s.cfg.cap < s.dw.toNat * s.dh.toNat ∧ ¬OutsidePanel s s.dw.toNat s.dh.toNat ∧
        Unreadable s.cfg s.src.toNat s.cfg.cap) := by decide +kernel

/-- V-ROI-6, 7, 8, 11. -/
theorem witness_RoiErrors :
    (let s := { at8 [] with sw := 4, sh := 2, rht := 2 }; s.rwd = 0 ∨ s.rht = 0) ∧
    (let s := { at8 [] with dx := 3, sw := 4, sh := 2, rwd := 2, rht := 1 };
      ¬(s.rwd = 0 ∨ s.rht = 0) ∧ OutsidePanel s s.rwd.toNat s.rht.toNat) ∧
    (let s := { at8 [] with sw := 4, sh := 2, rx := 3, rwd := 2, rht := 1 };
      ¬(s.rwd = 0 ∨ s.rht = 0) ∧ ¬OutsidePanel s s.rwd.toNat s.rht.toNat ∧ OutsideSource s) ∧
    (let s := { at8 [] with sw := 4, sh := 2, rwd := 4, rht := 2, src := 0x8000FFF8 };
      ¬(s.rwd = 0 ∨ s.rht = 0) ∧ ¬OutsidePanel s s.rwd.toNat s.rht.toNat ∧ ¬OutsideSource s ∧ RoiUnreadable s) := by
  decide +kernel

/-- V-GROI-4 to V-GROI-8. -/
theorem witness_GrayRoiErrors :
    (let s := { at8 [] with sw := 4, sh := 2, rwd := 2 }; s.rwd = 0 ∨ s.rht = 0) ∧
    (let s := { at8 [] with sw := 16, sh := 2, rwd := 9, rht := 1 }; ¬(s.rwd = 0 ∨ s.rht = 0) ∧ s.cfg.cap < s.rwd.toNat) ∧
    (let s := { at8 [] with sw := 8, sh := 2, rwd := 5, rht := 1 };
      ¬(s.rwd = 0 ∨ s.rht = 0) ∧ ¬s.cfg.cap < s.rwd.toNat ∧ OutsidePanel s s.rwd.toNat s.rht.toNat) ∧
    (let s := { at8 [] with sw := 4, sh := 2, rx := 2, rwd := 3, rht := 1 };
      ¬(s.rwd = 0 ∨ s.rht = 0) ∧ ¬s.cfg.cap < s.rwd.toNat ∧ ¬OutsidePanel s s.rwd.toNat s.rht.toNat ∧ OutsideSource s) ∧
    (let s := { at8 [] with sw := 4, sh := 2, ry := 1, rwd := 2, rht := 1, src := 0x8000FFF5 };
      ¬(s.rwd = 0 ∨ s.rht = 0) ∧ ¬s.cfg.cap < s.rwd.toNat ∧ ¬OutsidePanel s s.rwd.toNat s.rht.toNat ∧ ¬OutsideSource s ∧
        GrayRoiUnreadable s) := by decide +kernel

/-- V-CPY-7, 8, 10, 11. -/
theorem witness_CpyblkErrors :
    (let s := { copyState with sw := 0 }; s.sw = 0 ∨ s.sh = 0) ∧
    (let s := { copyState with dst := 0x80001000, dstr := 2, sh := 1 }; ¬(s.sw = 0 ∨ s.sh = 0) ∧ CopyOverlaps s) ∧
    (let s := { copyState with dstr := 1, dx := 0 }; ¬(s.sw = 0 ∨ s.sh = 0) ∧ CopyOverlaps s) ∧
    (let s := { copyState with dst := 0x8000FFFE, dstr := 2, sh := 1, dx := 0 };
      ¬(s.sw = 0 ∨ s.sh = 0) ∧ ¬CopyOverlaps s ∧ CopyUnreachable s) := by decide +kernel

theorem witness_WindowInsidePanelFitsStage : t8.Valid ∧ 0 < 4 ∧ 0 < 2 ∧ ¬OutsidePanel (at8 []) 4 2 ∧
    ¬OutsidePanel { at8 [] with orient := 0x20 } 2 4 := by decide +kernel

theorem witness_PicsSamplesInsideSource :
    let s := { at8 [0x34, 0x12] with dw := 4, dh := 2, sw := 3, sh := 3 }
    s.dw ≠ 0 ∧ s.dh ≠ 0 ∧ s.sw ≠ 0 ∧ s.sh ≠ 0 ∧ 3 < s.dw.toNat ∧ 1 < s.dh.toNat ∧
      ⟨0x80001000 + 2 * 5, 2⟩ ∈ s.readFootprint .pics ∧ Memory.write s.mem 0x80001012 7 ≠ s.mem := by decide +kernel

/-- The memory of that witness agrees with the state's on the whole source, which it ends beside. -/
theorem witness_PicsSamplesInsideSource_memory :
    let s := { at8 [0x34, 0x12] with dw := 4, dh := 2, sw := 3, sh := 3 }
    ∀ a, s.src.toNat ≤ a → a < s.src.toNat + 2 * (s.sw.toNat * s.sh.toNat) →
      Memory.read (Memory.write s.mem 0x80001012 7) a = Memory.read s.mem a := by
  intro s a _ ha
  have hs : s.src.toNat + 2 * (s.sw.toNat * s.sh.toNat) = 0x80001012 := by decide +kernel
  exact read_write_other _ (by omega) _

/-! ### Steps and commands that answer a next state -/

/-- Every command answers a next state, here from a state in which one completes and the others end in an error. -/
theorem witness_CommandsAnswer : ∀ i : Instr, ∃ t, exec i (at8 []) = .next t := by
  intro i
  cases i <;> exact ⟨_, rfl⟩

theorem witness_CommandIsAllOrNothing : ∃ t u, exec .swap16 (at8 []) = .next t ∧ exec .pic (at8 []) = .next u ∧ t.code = 0 ∧
    u.code ≠ 0 := ⟨_, _, rfl, rfl, by decide, by decide⟩

theorem witness_CodesOfEachCommand : ∃ t, exec .pics (at8 []) = .next t ∧ t.code = 2 := ⟨_, rfl, by decide⟩

theorem witness_WhatNoCommandWrites : ∃ t, exec .glut (at8 []) = .next t ∧ t.res = 0x2A00 := ⟨_, rfl, by decide +kernel⟩

theorem witness_EngineWritesOnlyAdmittedBytes : ∃ t, exec .cpyblk copyState = .next t ∧
    Memory.read t.mem 0x80002002 ≠ Memory.read copyState.mem 0x80002002 :=
  ⟨_, exec_of_none (by decide +kernel), by decide +kernel⟩

theorem witness_StageIsNotObservable : (at8 []).cfg.Valid := by decide +kernel

theorem witness_IdentityScaleIsPic :
    let s := { at8 [] with dw := 4, dh := 2, sw := 4, sh := 2 }
    s.cfg.Valid ∧ PicReady s ∧ PicsReady s ∧ s.sw = s.dw ∧ s.sh = s.dh := by decide +kernel

theorem witness_OneLineGrayRoiIsGray :
    let s := { at8 grayRoiSource with sw := 4, sh := 2, rx := 1, ry := 1, rwd := 3, rht := 1 }
    s.rht = 1 ∧ ¬OutsideSource s ∧ grayRoiByte s 0 < 2 ^ 32 := by decide +kernel

theorem witness_WhatChangesSticky :
    (∃ t, step { queued [.write 0x04 .w32 0x100] with sticky := true } = .next t ∧ t.sticky = false) ∧
    (∃ t, step { queued [.reset] with sticky := true } = .next t ∧ t.sticky = false) ∧
    (∃ t, step (queued [.write 0x00 .w32 0]) = .next t ∧ t.sticky = true) :=
  ⟨⟨_, rfl, by decide⟩, ⟨_, rfl, rfl⟩, ⟨_, rfl, by decide⟩⟩

theorem witness_OutIsOnlyAppendedTo : ∃ t, step (queued [wr .ORIENT 0x20]) = .next t ∧ t.out = [.orient 0x20] :=
  ⟨_, rfl, by decide⟩

theorem witness_WhatChangesMemory : ∃ t, step (queued [.store 0x80000000 7]) = .next t ∧ t.mem ≠ (queued []).mem :=
  ⟨_, rfl, by decide +kernel⟩

theorem witness_WhatChangesRes :
    (queued [.write 0x4C .w32 1]).pending = .write 0x4C .w32 1 :: [] ∧
    (queued [.read 0x4C .w32]).pending = .read 0x4C .w32 :: [] ∧
    ∃ t, step (queued [.write 0x00 .w32 8]) = .next t ∧ t.res ≠ (queued []).res :=
  ⟨rfl, rfl, _, rfl, by decide +kernel⟩

theorem witness_TableIsConstant : (∃ t, step (queued [.reset]) = .next t) ∧
    (Instr.pic ≠ .glut ∧ Instr.pic ≠ .gray ∧ Instr.pic ≠ .grayroi) := ⟨⟨_, rfl⟩, by decide⟩

theorem witness_StepKeepsInvariant : ∃ t, Inv (queued [wr .ORIENT 0x20]) ∧ step (queued [wr .ORIENT 0x20]) = .next t :=
  ⟨_, by decide +kernel, rfl⟩

end Sys2Proof.Tests
end

/-! The statements about the state (10_state.md): STAGE is not observable, the invariant, the registers, and what each command
leaves unchanged or does not read. -/

namespace Sys2Proof.Machine

open Sys2Proof.Safety

/-! ### A command in closed form

What each command leaves in STAGE, OUT, host memory and RES when no check fails. The slots a staged blit streams are all slots it
has just written, so none of these but STAGE itself depends on STAGE (10_state.md R22). -/

/-- The events of a staged blit that writes the slots `new` (41_staged_blit.md R93, R98, R103). -/
def blitEvents (s : State) (new : List Half) : List Event :=
  [s.windowAt 0 s.dw.toNat s.dh.toNat, .data16 (new.take (s.dw.toNat * s.dh.toNat))]

/-- The events a command appends to OUT. -/
def commandEvents (s : State) : Instr → List Event
  | .pic => blitEvents s (stagePairs (s.cfg.cap / 2) s.picPixel)
  | .pics => blitEvents s s.picsSlots
  | .roi => (List.range s.rht.toNat).flatMap (roiEvents s)
  | .gray => blitEvents s (s.graySlots s.src.toNat)
  | .grayroi => (List.range s.rht.toNat).flatMap (grayRoiEvents s)
  | .cpyblk => []
  | .swap16 => []
  | .glut => []

/-- What a command leaves in STAGE. -/
def commandStage (s : State) : Instr → List Half
  | .pic => (s.writeStage (stagePairs (s.cfg.cap / 2) s.picPixel)).stage
  | .pics => (s.writeStage s.picsSlots).stage
  | .roi => s.stage
  | .gray => (s.writeStage (s.graySlots s.src.toNat)).stage
  | .grayroi => grayRoiStage s s.rht.toNat
  | .cpyblk => s.stage
  | .swap16 => s.stage
  | .glut => s.stage

/-- What a command leaves in host memory: only CPYBLK writes it (20_memory.md R43). -/
def commandMemory (s : State) : Instr → Memory
  | .cpyblk => s.copyRows
  | .pic | .pics | .roi | .gray | .grayroi | .swap16 | .glut => s.mem

/-- What a command leaves in RES: only SWAP16 and GLUT write it (10_state.md R12). -/
def commandResult (s : State) : Instr → Half
  | .swap16 => swap16 s.arg
  | .glut => gray565 s.cfg (s.arg.setWidth 8)
  | .pic | .pics | .roi | .gray | .grayroi | .cpyblk => s.res

/-- CAP is even, so the CAP/2 pairs of a full remap fill STAGE (00_scope.md R4). -/
theorem two_mul_half_cap {c : Config} (hc : c.Valid) : 2 * (c.cap / 2) = c.cap := by
  obtain ⟨-, -, ⟨heven, -⟩, -⟩ := hc
  exact Nat.mul_div_cancel' (Nat.dvd_of_mod_eq_zero heven)

/-- The slots `new` fill the window of a staged blit that passed its checks, and fit in STAGE. -/
structure BlitFits (s : State) (new : List Half) : Prop where
  size : ¬(s.dw = 0 ∨ s.dh = 0)
  panel : ¬OutsidePanel s s.dw.toNat s.dh.toNat
  enough : s.dw.toNat * s.dh.toNat ≤ new.length
  fits : new.length ≤ s.cfg.cap

theorem picBlitFits {s : State} (hc : s.cfg.Valid) (h : PicReady s) :
    BlitFits s (stagePairs (s.cfg.cap / 2) s.picPixel) := by
  obtain ⟨hsize, hcap, hpanel, -⟩ := h
  have hlen := two_mul_half_cap hc
  exact ⟨hsize, hpanel, by simpa [hlen] using hcap, by simp [hlen]⟩

theorem grayBlitFits {s : State} (hc : s.cfg.Valid) (h : GrayReady s) : BlitFits s (s.graySlots s.src.toNat) := by
  obtain ⟨hsize, hcap, hpanel, -⟩ := h
  have hlen := two_mul_half_cap hc
  exact ⟨hsize, hpanel, by simpa [hlen] using hcap, by simp [hlen]⟩

theorem picsBlitFits {s : State} (h : PicsReady s) : BlitFits s s.picsSlots := by
  obtain ⟨hsize, heven, hcap, hpanel, -⟩ := h
  have hlen : s.picsSlots.length = s.dw.toNat * s.dh.toNat := by simp [picsSlots_eq s heven]
  exact ⟨fun hz => hsize (hz.imp_right .inl), hpanel, hlen.ge, hlen.trans_le hcap⟩

theorem BlitFits.stagedBlit_eq {s : State} {new : List Half} (h : BlitFits s new) :
    s.stagedBlit 0 s.dw.toNat s.dh.toNat new =
      { s with stage := (s.writeStage new).stage, out := s.out ++ blitEvents s new } :=
  Machine.stagedBlit_eq s 0 _ _ h.enough

theorem grayRoi_le_remap {s : State} (hc : s.cfg.Valid) (h : GrayRoiReady s) : s.rwd.toNat ≤ 2 * (s.cfg.cap / 2) := by
  obtain ⟨-, hcap, -⟩ := h
  exact hcap.trans_eq (two_mul_half_cap hc).symm

/-- The effect of every command whose checks pass, as the fields it leaves. -/
theorem commandEffect_eq {s : State} (hc : s.cfg.Valid) {i : Instr} (h : firstError (commandChecks s i) = none) :
    commandEffect s i = { s with
      stage := commandStage s i
      out := s.out ++ commandEvents s i
      mem := commandMemory s i
      res := commandResult s i } := by
  cases i with
  | pic => exact (picBlitFits hc ((picReady_iff s).mp h)).stagedBlit_eq
  | pics => exact (picsBlitFits ((picsReady_iff s).mp h)).stagedBlit_eq
  | gray => exact (grayBlitFits hc ((grayReady_iff s).mp h)).stagedBlit_eq
  | roi => exact roiLines_eq s _
  | grayroi => exact grayRoiLines_eq s (grayRoi_le_remap hc ((grayRoiReady_iff s).mp h)) _
  | cpyblk | swap16 | glut => simp [commandEffect, commandStage, commandEvents, commandMemory, commandResult]

/-! ### What a command changes -/

/-- A command that answers a next state has raised an error or completed with its effect (60_exceptions.md R131). -/
theorem exec_next_cases {i : Instr} {s t : State} (h : exec i s = .next t) :
    (∃ e, t = s.raise e) ∨ (firstError (commandChecks s i) = none ∧ t = (commandEffect s i).succeed) := by
  rcases exec_cases i s with ⟨e, -, ht⟩ | ⟨hready, ht⟩ <;> rw [ht] at h <;> injection h with h
  · exact .inl ⟨e, h.symm⟩
  · exact .inr ⟨hready, h.symm⟩

/-- What a command that answers a next state has done: CODE and STICKY apart, it changes STAGE, OUT, host memory and RES at most,
each only under the commands `commandEffect_frame` names. -/
theorem exec_frame {i : Instr} {s t : State} (h : exec i s = .next t) : ∃ st o m r c k,
    t = { s with stage := st, out := s.out ++ o, mem := m, res := r, code := c, sticky := k } ∧
      (isStaged i = false → st = s.stage) ∧ (i ≠ .cpyblk → m = s.mem) ∧ (i ≠ .swap16 → i ≠ .glut → r = s.res) ∧
      (i = .cpyblk ∨ i = .swap16 ∨ i = .glut → o = []) := by
  rcases exec_next_cases h with ⟨e, rfl⟩ | ⟨-, rfl⟩
  · exact ⟨s.stage, [], s.mem, s.res, e.code, true, by simp [State.raise], by simp⟩
  · obtain ⟨st, o, m, r, heff, hframe⟩ := commandEffect_frame i s
    exact ⟨st, o, m, r, 0, s.sticky, by rw [heff]; rfl, hframe⟩

theorem exec_cfg {i : Instr} {s t : State} (h : exec i s = .next t) : t.cfg = s.cfg := by
  obtain ⟨_, _, _, _, _, _, rfl, -⟩ := exec_frame h
  rfl

/-! ### What a command does not read -/

/-- A command commutes with a change of the state that its checks do not see and its effect commutes with. -/
theorem exec_map (u : State → State) (s : State) (i : Instr) (hchecks : commandChecks (u s) i = commandChecks s i)
    (hraise : ∀ e, (u s).raise e = u (s.raise e))
    (heffect : (commandEffect (u s) i).succeed = u (commandEffect s i).succeed) :
    exec i (u s) = mapNext u (exec i s) := by
  rw [exec_eq_runCommand, exec_eq_runCommand]
  exact runCommand_map u s hchecks hraise heffect

/-- The lines of ROI commute with a change of the state that each line commutes with. -/
theorem roiLines_comm (u : State → State) (h : ∀ t line, (u t).roiLine line = u (t.roiLine line)) (s : State) (n : Nat) :
    (List.range n).foldl State.roiLine (u s) = u ((List.range n).foldl State.roiLine s) := by
  induction n with
  | zero => rfl
  | succ n ih =>
    rw [List.range_succ, List.foldl_append, List.foldl_append, ih]
    exact h _ _

/-- The state with another table in GRAYRAMP. -/
def State.withRamp (g : Vector Half 64) (s : State) : State := { s with cfg := { s.cfg with grayRamp := g } }

/-- The state with another value in STATUS. -/
def State.withStatus (c : Byte) (k : Bool) (s : State) : State := { s with code := c, sticky := k }

theorem commandChecks_withStatus (s : State) (c : Byte) (k : Bool) (i : Instr) :
    commandChecks (s.withStatus c k) i = commandChecks s i := by
  cases i <;> rfl

theorem commandEffect_withStatus (s : State) (c : Byte) (k : Bool) (i : Instr) :
    commandEffect (s.withStatus c k) i = (commandEffect s i).withStatus c k := by
  cases i with
  | roi => exact roiLines_comm _ (fun _ _ => rfl) s _
  | grayroi => exact grayRoiLines_comm _ (fun _ _ => rfl) s _
  | pic | pics | gray | cpyblk | swap16 | glut => rfl

/-! ### What a register write changes -/

@[simp] theorem State.writeReg_cfg (r : Reg) (v : Word) (s : State) : (s.writeReg r v).cfg = s.cfg := by
  cases r <;> rfl

@[simp] theorem State.writeReg_stage (r : Reg) (v : Word) (s : State) : (s.writeReg r v).stage = s.stage := by
  cases r <;> rfl

@[simp] theorem State.writeReg_mem (r : Reg) (v : Word) (s : State) : (s.writeReg r v).mem = s.mem := by
  cases r <;> rfl

@[simp] theorem State.writeReg_code (r : Reg) (v : Word) (s : State) : (s.writeReg r v).code = s.code := by
  cases r <;> rfl

@[simp] theorem State.writeReg_res (r : Reg) (v : Word) (s : State) : (s.writeReg r v).res = s.res := by
  cases r <;> rfl

@[simp] theorem State.writeReg_pending (r : Reg) (v : Word) (s : State) : (s.writeReg r v).pending = s.pending := by
  cases r <;> rfl

@[simp] theorem State.writeReg_replies (r : Reg) (v : Word) (s : State) : (s.writeReg r v).replies = s.replies := by
  cases r <;> rfl

@[simp] theorem State.writeReg_resets (r : Reg) (v : Word) (s : State) : (s.writeReg r v).resets = s.resets := by
  cases r <;> rfl

/-- The events of a register write: only a write to ORIENT emits one (10_state.md R16). -/
def writeEvents (v : Word) : Reg → List Event
  | .ORIENT => [.orient (v.setWidth 8)]
  | .CMD | .STATUS | .EXTENT | .DX | .DY | .DW | .DH | .SW | .SH | .RX | .RY | .RWD | .RHT | .SRC | .DST | .SSTR | .DSTR
  | .ARG | .RES => []

@[simp] theorem State.writeReg_out (r : Reg) (v : Word) (s : State) : (s.writeReg r v).out = s.out ++ writeEvents v r := by
  cases r <;> simp [State.writeReg, writeEvents]

theorem writeEvents_operand {r : Reg} (hr : isOperand r = true) (v : Word) : writeEvents v r = [] := by
  cases r with
  | ORIENT => cases hr
  | _ => rfl

/-! ### What a register reads after a write -/

/-- An operand register or ORIENT holds the low bits written to it (10_state.md R11, 30_encoding.md R62). -/
theorem readReg_writeReg_same {r : Reg} (hr : isOperand r = true ∨ r = .ORIENT) (v : Word) (s : State) :
    (s.writeReg r v).readReg r = v &&& storedBits r := by
  cases r with
  | CMD | STATUS | EXTENT | RES => simp [isOperand] at hr
  | ORIENT => exact setWidth_8_32 v
  | SRC | DST => exact (BitVec.and_allOnes (x := v)).symm
  | DX | DY | DW | DH | SW | SH | RX | RY | RWD | RHT | SSTR | DSTR | ARG => exact setWidth_16_32 v

/-- A write to an operand register changes no other register (10_state.md R11: "There are no aliases"). -/
theorem readReg_writeReg_other {r r' : Reg} (hr : isOperand r = true) (hne : r' ≠ r) (v : Word) (s : State) :
    (s.writeReg r v).readReg r' = s.readReg r' := by
  cases r with
  | CMD | STATUS | ORIENT | EXTENT | RES => cases hr
  | _ => cases r' <;> first | rfl | exact absurd rfl hne

theorem readReg_pending (s : State) (p : List HostAccess) (r : Reg) :
    State.readReg { s with pending := p } r = s.readReg r := by
  cases r <;> rfl

theorem ne_cmd_of_isOperand {r : Reg} (hr : isOperand r = true) : r ≠ .CMD := by
  rintro rfl
  cases hr

/-! ### Single steps -/

theorem step_wr {s : State} {r : Reg} {v : Word} {rest : List HostAccess} (h : s.pending = wr r v :: rest)
    (hr : r ≠ .CMD) : step s = .next ({ s with pending := rest }.writeReg r v) :=
  (step_of_pending h).trans (hostAccess_wr _ v hr)

theorem step_rd {s : State} {r : Reg} {rest : List HostAccess} (h : s.pending = rd r :: rest) :
    step s = .next { s with pending := rest, replies := s.replies ++ [.reg (s.readReg r)] } := by
  rw [step_of_pending h, hostAccess_rd, readReg_pending]

theorem step_cmdWord {s : State} {w : Word} {rest : List HostAccess} (h : s.pending = .write 0x00 .w32 w :: rest) :
    step s = writeCmd w { s with pending := rest } :=
  step_of_pending h

theorem step_cfg {s t : State} (h : step s = .next t) : t.cfg = s.cfg := by
  cases step_cases h with
  | command i rest _ ht => exact (exec_cfg ht).trans rfl
  | write r v rest _ _ => exact State.writeReg_cfg r v _
  | idle | illegal | reserved | read | store | load | reset => rfl

/-! ### STAGE is not read

Every access maps two states that differ in STAGE alone to two outcomes that differ in STAGE alone (10_state.md R22). -/

/-- The state with other contents in STAGE. -/
def State.withStage (st : List Half) (s : State) : State := { s with stage := st }

@[simp] theorem State.withStage_cfg (st : List Half) (s : State) : (s.withStage st).cfg = s.cfg := rfl

theorem commandChecks_withStage (s : State) (st : List Half) (i : Instr) :
    commandChecks (s.withStage st) i = commandChecks s i := by
  cases i <;> rfl

theorem commandEvents_withStage (s : State) (st : List Half) (i : Instr) :
    commandEvents (s.withStage st) i = commandEvents s i := by
  cases i <;> rfl

theorem commandMemory_withStage (s : State) (st : List Half) (i : Instr) :
    commandMemory (s.withStage st) i = commandMemory s i := by
  cases i <;> rfl

theorem commandResult_withStage (s : State) (st : List Half) (i : Instr) :
    commandResult (s.withStage st) i = commandResult s i := by
  cases i <;> rfl

/-- The effects of a command on two states that differ in STAGE differ in STAGE alone. -/
theorem commandEffect_withStage {s : State} (hc : s.cfg.Valid) (st : List Half) {i : Instr}
    (h : firstError (commandChecks s i) = none) :
    commandEffect (s.withStage st) i = (commandEffect s i).withStage (commandStage (s.withStage st) i) := by
  have h' : firstError (commandChecks (s.withStage st) i) = none := by rwa [commandChecks_withStage]
  rw [commandEffect_eq hc h, commandEffect_eq (s := s.withStage st) hc h', commandEvents_withStage,
    commandMemory_withStage, commandResult_withStage]
  rfl

theorem exec_withStage (i : Instr) {s : State} (hc : s.cfg.Valid) (st : List Half) :
    ∃ st', exec i (s.withStage st) = mapNext (State.withStage st') (exec i s) := by
  rcases exec_cases i s with ⟨e, he, hs⟩ | ⟨hready, hs⟩
  · exact ⟨st, by rw [hs, exec_of_some (by rwa [commandChecks_withStage])]; rfl⟩
  · refine ⟨commandStage (s.withStage st) i, ?_⟩
    rw [hs, exec_of_none (by rwa [commandChecks_withStage]), commandEffect_withStage hc st hready]
    rfl

theorem writeReg_withStage (r : Reg) (v : Word) (s : State) (st : List Half) :
    (s.withStage st).writeReg r v = (s.writeReg r v).withStage st := by
  cases r <;> rfl

theorem writeOffset_withStage (off : Nat) (v : Word) {s : State} (hc : s.cfg.Valid) (st : List Half) :
    ∃ st', writeOffset off v (s.withStage st) = mapNext (State.withStage st') (writeOffset off v s) := by
  unfold writeOffset
  split
  · unfold writeCmd
    cases decodeWord v with
    | ok i => exact exec_withStage i hc st
    | error e => exact ⟨st, rfl⟩
  · exact ⟨st, by rw [writeReg_withStage]; rfl⟩
  · exact ⟨st, rfl⟩

theorem readReg_withStage (r : Reg) (s : State) (st : List Half) : (s.withStage st).readReg r = s.readReg r := by
  cases r <;> rfl

theorem readOffset_withStage (off : Nat) (s : State) (st : List Half) :
    (s.withStage st).readOffset off = s.readOffset off := by
  simp only [State.readOffset, readReg_withStage]

theorem hostStore_withStage (a : Nat) (v : Byte) (s : State) (st : List Half) :
    hostStore a v (s.withStage st) = mapNext (State.withStage st) (hostStore a v s) := by
  simp only [hostStore, apply_ite (mapNext _)]
  rfl

theorem hostLoad_withStage (a : Nat) (s : State) (st : List Half) :
    hostLoad a (s.withStage st) = mapNext (State.withStage st) (hostLoad a s) := by
  simp only [hostLoad, apply_ite (mapNext _)]
  rfl

theorem hostAccess_withStage (a : HostAccess) {s : State} (hc : s.cfg.Valid) (st : List Half) :
    ∃ st', hostAccess a (s.withStage st) = mapNext (State.withStage st') (hostAccess a s) := by
  cases a with
  | write off width v =>
    simp only [hostAccess]
    split
    · exact ⟨st, rfl⟩
    · exact writeOffset_withStage off v hc st
  | read off width =>
    simp only [hostAccess, readOffset_withStage]
    split <;> exact ⟨st, rfl⟩
  | store a v => exact ⟨st, hostStore_withStage a v s st⟩
  | load a => exact ⟨st, hostLoad_withStage a s st⟩
  | reset => exact ⟨(s.withStage st).hostReset.stage, rfl⟩

theorem step_withStage {s : State} (hc : s.cfg.Valid) (st : List Half) :
    ∃ st', step (s.withStage st) = mapNext (State.withStage st') (step s) := by
  have hp : (s.withStage st).pending = s.pending := rfl
  cases h : s.pending with
  | nil => exact ⟨st, by simp only [step, hp, h]; rfl⟩
  | cons a rest =>
    rw [step_of_pending h, step_of_pending (hp.trans h)]
    exact hostAccess_withStage a (s := { s with pending := rest }) hc st

/-- A run of two states that differ in STAGE alone ends in two outcomes that differ in STAGE alone. -/
theorem runSteps_withStage (n : Nat) {s : State} (hc : s.cfg.Valid) (st : List Half) :
    ∃ st', runSteps n (s.withStage st) = mapNext (State.withStage st') (runSteps n s) := by
  induction n generalizing s st with
  | zero => exact ⟨st, rfl⟩
  | succ n ih =>
    obtain ⟨st', hstep⟩ := step_withStage hc st
    cases h : step s with
    | next t =>
      rw [h] at hstep
      rw [runSteps_next h, runSteps_next hstep]
      exact ih (step_cfg h ▸ hc) st'
    | fault r =>
      rw [h] at hstep
      exact ⟨st, by rw [runSteps_fault h, runSteps_fault hstep]; rfl⟩
    | refused r =>
      rw [h] at hstep
      exact ⟨st, by rw [runSteps_refused h, runSteps_refused hstep]; rfl⟩

theorem sameButStage_mapNext (st : List Half) (o : Host.Outcome State Fault Refusal) :
    SameButStage o (mapNext (State.withStage st) o) := by
  cases o <;> rfl

/-! ### A command keeps the invariant -/

theorem BlitFits.logPaired {s : State} (hc : s.cfg.Valid) {new : List Half} (h : BlitFits s new) :
    logPaired (blitEvents s new) = true := by
  obtain ⟨hx, hy⟩ := window_fits hc h.panel
  have hsize : 0 < s.dw.toNat ∧ 0 < s.dh.toNat := by
    have := h.size
    rw [not_or] at this
    bv_omega
  rw [blitEvents, windowAt_eq, Nat.add_zero]
  exact logPaired_slots hsize.1 hsize.2 hx hy (by simp [h.enough])

/-- A line of a region that passed its window check: one pixel high, inside the panel. -/
theorem regionLine_fits {s : State} (hc : s.cfg.Valid) (hz : ¬(s.rwd = 0 ∨ s.rht = 0))
    (hp : ¬OutsidePanel s s.rwd.toNat s.rht.toNat) {line : Nat} (hl : line < s.rht.toNat) :
    0 < s.rwd.toNat ∧ s.dx.toNat + s.rwd.toNat ≤ 65536 ∧ s.dy.toNat + line + 1 ≤ 65536 := by
  obtain ⟨hx, hy⟩ := window_fits hc hp
  rw [not_or] at hz
  exact ⟨by bv_omega, hx, by omega⟩

theorem roiEvents_paired {s : State} (hc : s.cfg.Valid) (h : RoiReady s) {line : Nat} (hl : line < s.rht.toNat) :
    logPaired (roiEvents s line) = true := by
  obtain ⟨hz, hp, -⟩ := h
  obtain ⟨hw, hx, hy⟩ := regionLine_fits hc hz hp hl
  rw [roiEvents, windowAt_eq]
  exact logPaired_bytes hw Nat.one_pos hx hy (by simp [Memory.bytes])

theorem grayRoiEvents_paired {s : State} (hc : s.cfg.Valid) (h : GrayRoiReady s) {line : Nat} (hl : line < s.rht.toNat) :
    logPaired (grayRoiEvents s line) = true := by
  have hremap := grayRoi_le_remap hc h
  obtain ⟨hz, -, hp, -⟩ := h
  obtain ⟨hw, hx, hy⟩ := regionLine_fits hc hz hp hl
  rw [grayRoiEvents, windowAt_eq]
  exact logPaired_slots hw Nat.one_pos hx hy (by simpa using hremap)

theorem commandEvents_paired {s : State} (hc : s.cfg.Valid) {i : Instr} (h : firstError (commandChecks s i) = none) :
    logPaired (commandEvents s i) = true := by
  cases i with
  | pic => exact (picBlitFits hc ((picReady_iff s).mp h)).logPaired hc
  | pics => exact (picsBlitFits ((picsReady_iff s).mp h)).logPaired hc
  | gray => exact (grayBlitFits hc ((grayReady_iff s).mp h)).logPaired hc
  | roi => exact logPaired_flatMap _ _ fun line hl => roiEvents_paired hc ((roiReady_iff s).mp h) hl
  | grayroi => exact logPaired_flatMap _ _ fun line hl => grayRoiEvents_paired hc ((grayRoiReady_iff s).mp h) hl
  | cpyblk | swap16 | glut => rfl

theorem BlitFits.stage_length {s : State} {new : List Half} (h : BlitFits s new) (hs : s.stage.length = s.cfg.cap) :
    (s.writeStage new).stage.length = s.cfg.cap :=
  (State.writeStage_length new s (h.fits.trans_eq hs.symm)).trans hs

theorem grayRoiStage_length {s : State} (hc : s.cfg.Valid) (hs : s.stage.length = s.cfg.cap) (n : Nat) :
    (grayRoiStage s n).length = s.cfg.cap := by
  cases n with
  | zero => exact hs
  | succ n => simp [grayRoiStage, two_mul_half_cap hc, hs]

theorem commandStage_length {s : State} (hc : s.cfg.Valid) (hs : s.stage.length = s.cfg.cap) {i : Instr}
    (h : firstError (commandChecks s i) = none) : (commandStage s i).length = s.cfg.cap := by
  cases i with
  | pic => exact (picBlitFits hc ((picReady_iff s).mp h)).stage_length hs
  | pics => exact (picsBlitFits ((picsReady_iff s).mp h)).stage_length hs
  | gray => exact (grayBlitFits hc ((grayReady_iff s).mp h)).stage_length hs
  | grayroi => exact grayRoiStage_length hc hs _
  | roi | cpyblk | swap16 | glut => exact hs

theorem commandMemory_wf {s : State} (hm : Memory.wf s.mem) {i : Instr} (h : firstError (commandChecks s i) = none) :
    Memory.wf (commandMemory s i) := by
  cases i with
  | cpyblk =>
    have hready := (copyReady_iff s).mp h
    exact copyRowsTo_wf s _ hm fun row hr b hb => (writable_of_ready hready hr hb).1
  | pic | pics | roi | gray | grayroi | swap16 | glut => exact hm

theorem okCode_le : (0 : Byte) ≤ 9 := by decide

theorem raise_inv (e : Err) {s : State} (h : Inv s) : Inv (s.raise e) := by
  obtain ⟨hc, hs, hm, -, ho⟩ := h
  exact ⟨hc, hs, hm, errCode_le e, ho⟩

theorem exec_inv {i : Instr} {s t : State} (h : Inv s) (ht : exec i s = .next t) : Inv t := by
  rcases exec_next_cases ht with ⟨e, rfl⟩ | ⟨hready, rfl⟩
  · exact raise_inv e h
  · obtain ⟨hc, hs, hm, -, ho⟩ := h
    rw [commandEffect_eq hc hready]
    exact ⟨hc, commandStage_length hc hs hready, commandMemory_wf hm hready, okCode_le,
      logPaired_append _ _ ho (commandEvents_paired hc hready)⟩

/-! ### A register write and a reset keep the invariant -/

theorem writeEvents_paired (v : Word) (r : Reg) : logPaired (writeEvents v r) = true := by
  cases r <;> rfl

theorem writeReg_inv (r : Reg) (v : Word) {s : State} (h : Inv s) : Inv (s.writeReg r v) := by
  obtain ⟨hc, hs, hm, hcode, ho⟩ := h
  simp only [Safety.Inv, State.writeReg_cfg, State.writeReg_stage, State.writeReg_mem, State.writeReg_code, State.writeReg_out]
  exact ⟨hc, hs, hm, hcode, logPaired_append _ _ ho (writeEvents_paired v r)⟩

theorem hostReset_inv {s : State} (h : Inv s) : Inv s.hostReset := by
  obtain ⟨hc, -, hm, -, ho⟩ := h
  exact ⟨hc, stageAfter_length _ _, hm, okCode_le, ho⟩

/-! ### The obligations of tier 1 -/

/-- Settles O4: a write at offset 0 is a write to CMD, which runs the command its word decodes to. -/
theorem stepRunsDecodedCommand : Obligations.StepRunsDecodedCommand := by
  intro s w i rest hp hw
  rw [step_cmdWord hp, writeCmd, hw]

/-- Settles O5: the access placed at the head of the queue is `cmd i`. -/
theorem fetchWordRunsCommand : Obligations.FetchWordRunsCommand := by
  intro s i _
  have hp : (s.withFetchWord 32 (encode i).toNat).pending = cmd i :: s.pending := by
    simp [State.withFetchWord, cmd]
  rw [step_of_pending hp, hostAccess_cmd]
  rfl

/-- Settles O14: bit 8 of a word is the parity of its value divided by 256. -/
theorem statusWriteClearsSticky : Obligations.StatusWriteClearsSticky := by
  intro s v rest hp
  have hbit : v.getLsbD 8 = decide (v.toNat / 256 % 2 = 1) := Nat.testBit_eq_decide_div_mod_eq
  rw [step_wr (r := .STATUS) hp (by decide), State.writeReg, State.writeStatus, hbit]
  by_cases h : v.toNat / 256 % 2 = 1 <;> simp [h]

/-- Settles O15, by what a write to ORIENT leaves and what the register then reads. -/
theorem orientWriteEmits : Obligations.OrientWriteEmits := by
  intro s v rest hp
  refine ⟨_, step_wr (r := .ORIENT) hp (by decide), ?_, rfl⟩
  rw [readReg_writeReg_same (.inr rfl), show storedBits .ORIENT = 0xFF from rfl, ← setWidth_8_32]
  simp
  omega

/-- Settles O19: with every size register 0 the first check of each blit and copy command fails. -/
theorem resetValues : Obligations.ResetValues := by
  refine ⟨⟨rfl, platform_valid⟩, fun c _ => ⟨fun r hr => ?_, rfl, stageAfter_length c 0, rfl, ?_, ?_, fun i h h' => ?_⟩⟩
  · cases r with
    | EXTENT => exact absurd rfl hr
    | STATUS => simp [State.readReg, State.statusWord]
    | _ => rfl
  · simp [State.extW, State.axesSwapped]
  · simp [State.extH, State.axesSwapped]
  · rw [fetchWordRunsCommand _ i (Laws.Encoding.all i).1]
    have hzero : firstError (commandChecks (State.resetOf c) i) = some .zero := by
      cases i with
      | swap16 => exact absurd rfl h
      | glut => exact absurd rfl h'
      | _ => rfl
    exact exec_of_some hzero

/-- Settles O55: STAGE is given CAP slots, and memory and OUT are empty. -/
theorem resetMeetsInvariant : Obligations.ResetMeetsInvariant :=
  ⟨platform_valid, stageAfter_length _ _, ⟨.nil, by simp [State.reset]⟩, okCode_le, rfl⟩

/-! ### The obligations of tier 2 -/

/-- Settles O11: a run of the write, then of the read. -/
theorem registerHoldsItsLowBits : Obligations.RegisterHoldsItsLowBits := by
  intro s r v rest hr hp
  have hcmd : r ≠ .CMD := hr.elim ne_cmd_of_isOperand (by rintro rfl; decide)
  refine ⟨_, (runSteps_wr hp hcmd).trans (runSteps_rd (State.writeReg_pending _ _ _)), rfl, ?_⟩
  simp [readReg_writeReg_same hr]

/-- Settles O12, register by register. -/
theorem operandWriteHasNoAlias : Obligations.OperandWriteHasNoAlias := by
  intro s r v rest hr hp
  refine ⟨_, step_wr hp (ne_cmd_of_isOperand hr), fun r' hne => ?_, readReg_writeReg_same (.inl hr) v _, ?_⟩
  · rw [readReg_writeReg_other hr hne, readReg_pending]
  · simp [writeEvents_operand hr]

/-- Settles O16: a valid mask selects one bit of ORIENT, and both extents fit the 16-bit halves of EXTENT. -/
theorem extentFollowsOrientation : Obligations.ExtentFollowsOrientation := by
  intro s hc b hb
  have hswap := axesSwapped_eq s b hb
  have hle := extent_le s hc
  have hword := extentWord_toNat s
  refine ⟨fun h => ?_, fun h => ?_, ?_, ?_, fun v rest hp => step_wr (r := .EXTENT) hp (by decide)⟩
  · simp [State.extW, State.extH, hswap.trans h]
  · simp [State.extW, State.extH, hswap.trans h]
  · simp only [State.readReg, BitVec.extractLsb'_toNat, Nat.shiftRight_eq_div_pow]
    omega
  · simp only [State.readReg, BitVec.extractLsb'_toNat, Nat.shiftRight_eq_div_pow]
    omega

/-- Settles O42, by the frame of a command. -/
theorem whatNoCommandWrites : Obligations.WhatNoCommandWrites := by
  intro i s t ht
  obtain ⟨st, o, m, r, c, k, rfl, hst, hm, hres, ho⟩ := exec_frame ht
  refine ⟨fun r hr => ?_, rfl, rfl, rfl, rfl, rfl, hres, ?_, hm, fun h => by simp [ho h]⟩
  · cases r with
    | CMD | STATUS | ORIENT | EXTENT | RES => cases hr
    | _ => rfl
  · cases i <;> simp_all [isStaged]

/-- Settles O44: the change of the unlisted registers leaves the command's checks and commutes with its effect. -/
theorem unlistedRegistersIgnored : Obligations.UnlistedRegistersIgnored := by
  intro s a b c d e f g h k l m n x y
  refine ⟨?_, ?_, ?_, ?_, ?_⟩ <;> intro u
  · exact ⟨exec_map u s .pic rfl (fun _ => rfl) rfl, exec_map u s .gray rfl (fun _ => rfl) rfl⟩
  · exact exec_map u s .pics rfl (fun _ => rfl) rfl
  · exact ⟨exec_map u s .roi rfl (fun _ => rfl) (congrArg State.succeed (roiLines_comm u (fun _ _ => rfl) s _)),
      exec_map u s .grayroi rfl (fun _ => rfl) (congrArg State.succeed (grayRoiLines_comm u (fun _ _ => rfl) s _))⟩
  · exact exec_map u s .cpyblk rfl (fun _ => rfl) rfl
  · exact ⟨exec_map u s .swap16 rfl (fun _ => rfl) rfl, exec_map u s .glut rfl (fun _ => rfl) rfl⟩

/-- Settles O45: neither the checks nor the effect of a command read CODE or STICKY, and every error has a code other than 0. -/
theorem noCommandReadsStatus : Obligations.NoCommandReadsStatus := by
  intro i s c b
  change exec i (s.withStatus c b) = _
  rcases exec_cases i s with ⟨e, he, hs⟩ | ⟨hready, hs⟩
  · have hsticky : (b || decide (e.code ≠ 0)) = true := by rw [decide_eq_true (errCode_ne_zero e), Bool.or_true]
    rw [hs, exec_of_some (by rwa [commandChecks_withStatus])]
    change _ = Host.Outcome.next { s with code := e.code, sticky := b || decide (e.code ≠ 0) }
    rw [hsticky]
    rfl
  · rw [hs, exec_of_none (by rwa [commandChecks_withStatus]), commandEffect_withStatus]
    simp [mapNext, State.withStatus, State.succeed]

/-- Settles O50: commands and register writes append events, every other access leaves OUT. -/
theorem outIsOnlyAppendedTo : Obligations.OutIsOnlyAppendedTo := by
  intro s t ht
  cases step_cases ht with
  | command i rest _ hexec =>
    obtain ⟨_, o, _, _, _, _, rfl, -⟩ := exec_frame hexec
    exact ⟨o, rfl⟩
  | write r v rest => exact ⟨writeEvents v r, State.writeReg_out _ _ _⟩
  | idle | illegal | reserved | read | store | load | reset => exact ⟨[], by simp⟩

/-- Settles O52, by the accesses a step can have performed. -/
theorem whatChangesRes : Obligations.WhatChangesRes := by
  intro s
  refine ⟨fun v rest hp => step_wr (r := .RES) hp (by decide), fun rest hp => ?_, fun t ht hres => ?_⟩
  · rw [step_rd (r := .RES) hp]
    simp [State.readReg]
  · cases step_cases ht with
    | command i rest hp hexec =>
      refine ⟨rest, ?_⟩
      obtain ⟨st, o, m, r, c, k, rfl, -, -, hframe, -⟩ := exec_frame hexec
      cases i with
      | swap16 => exact .inl hp
      | glut => exact .inr (.inl hp)
      | pic | pics | roi | gray | grayroi | cpyblk => exact absurd (hframe nofun nofun) hres
    | reset rest hp => exact ⟨rest, .inr (.inr hp)⟩
    | write r v rest => exact absurd (State.writeReg_res _ _ _) hres
    | idle | illegal | reserved | read | store | load => exact absurd rfl hres

/-- Settles O53: another table leaves the checks of the other commands and commutes with their effects. -/
theorem tableIsConstant : Obligations.TableIsConstant := by
  refine ⟨fun s t ht => step_cfg ht, fun i s g hglut hgray hgrayroi => ?_⟩
  change exec i (s.withRamp g) = mapNext (State.withRamp g) (exec i s)
  cases i with
  | glut => exact absurd rfl hglut
  | gray => exact absurd rfl hgray
  | grayroi => exact absurd rfl hgrayroi
  | roi =>
    exact exec_map _ s .roi rfl (fun _ => rfl) (congrArg State.succeed (roiLines_comm _ (fun _ _ => rfl) s _))
  | _ => exact exec_map _ s _ rfl (fun _ => rfl) rfl

/-! ### The obligations of tier 3 -/

/-- Settles O46: a run reads STAGE only after writing it, so other contents before it change the contents after it at most. -/
theorem stageIsNotObservable : Obligations.StageIsNotObservable := by
  intro n s st hc
  obtain ⟨st', hrun⟩ := runSteps_withStage n hc st
  change SameButStage (runSteps n s) (runSteps n (s.withStage st))
  rw [hrun]
  exact sameButStage_mapNext st' _

/-- Settles O56: each access a step can perform keeps the invariant. -/
theorem stepKeepsInvariant : Obligations.StepKeepsInvariant := by
  intro s t h hstep
  cases step_cases hstep with
  | idle => exact h
  | command i rest _ ht => exact exec_inv (s := { s with pending := rest }) h ht
  | illegal w rest => exact raise_inv .op (s := { s with pending := rest }) h
  | write r v rest => exact writeReg_inv r v (s := { s with pending := rest }) h
  | reserved | read | load => exact h
  | store a v rest ha =>
    obtain ⟨hc, hs, hm, hcode, ho⟩ := h
    exact ⟨hc, hs, write_wf hm ha v, hcode, ho⟩
  | reset rest => exact hostReset_inv (s := { s with pending := rest }) h

end Sys2Proof.Machine

/-! The statements about host memory (20_memory.md): what the host stores it loads, and what a command or a step writes. -/

namespace Sys2Proof.Machine

open Sys2Proof.Safety

/-! ### Bytes of host memory outside the register block -/

/-- Above 2^32 there is no byte to store (20_memory.md R40). -/
theorem step_store_above {s : State} {a : Nat} {v : Byte} {rest : List HostAccess} (hp : s.pending = .store a v :: rest)
    (ha : 2 ^ 32 ≤ a) : step s = .fault .noSuchAddress :=
  (step_of_pending hp).trans (if_pos ha)

theorem step_store {s : State} {a : Nat} {v : Byte} {rest : List HostAccess} (hp : s.pending = .store a v :: rest)
    (ha : a < 2 ^ 32) (hblock : ¬(s.cfg.regBase.toNat ≤ a ∧ a < s.cfg.regBase.toNat + 256)) :
    step s = .next { s with pending := rest, mem := Memory.write s.mem a v } :=
  (step_of_pending hp).trans ((if_neg ha.not_ge).trans (if_neg (mt (inRegisterBlock_iff _ _).mp hblock)))

theorem step_load {s : State} {a : Nat} {rest : List HostAccess} (hp : s.pending = .load a :: rest)
    (ha : a < 2 ^ 32) (hblock : ¬(s.cfg.regBase.toNat ≤ a ∧ a < s.cfg.regBase.toNat + 256)) :
    step s = .next { s with pending := rest, replies := s.replies ++ [.byte (Memory.read s.mem a)] } :=
  (step_of_pending hp).trans ((if_neg ha.not_ge).trans (if_neg (mt (inRegisterBlock_iff _ _).mp hblock)))

/-! ### What a command writes to host memory -/

/-- A byte that CPYBLK changes lies in the destination of a row (43_copy.md R121). -/
theorem exists_copyTo_of_read_copyRows_ne {s : State} {a : Nat} (h : Memory.read s.copyRows a ≠ Memory.read s.mem a) :
    ∃ row, row < s.sh.toNat ∧ ∃ b, b < 2 * s.sw.toNat ∧ a = copyTo s row b := by
  by_contra hnone
  exact h (copyRowsTo_read_other s _ fun row hr b hb ha => hnone ⟨row, hr, b, hb, ha⟩)

/-- A command that changes host memory is a CPYBLK whose checks pass, and it copies the block (20_memory.md R43). -/
theorem exec_mem_cases {i : Instr} {s t : State} (h : exec i s = .next t) :
    t.mem = s.mem ∨ (i = .cpyblk ∧ CopyReady s ∧ t.mem = s.copyRows) := by
  rcases exec_next_cases h with ⟨e, rfl⟩ | ⟨hready, rfl⟩
  · exact .inl (State.raise_mem s e)
  · by_cases hi : i = .cpyblk
    · subst hi
      exact .inr ⟨rfl, (copyReady_iff s).mp hready, rfl⟩
    · obtain ⟨_, _, _, _, heff, -, hmem, -⟩ := commandEffect_frame i s
      rw [heff]
      exact .inl (hmem hi)

/-! ### The obligations -/

/-- Settles O18: a run of the store, then of the load, and what a byte reads after a write. -/
theorem hostStoreThenLoad : Obligations.HostStoreThenLoad := by
  intro s a v rest hp hm
  refine ⟨step_store_above hp, fun ha hblock => ⟨Memory.write s.mem a v, ?_, write_wf hm ha v, read_write_same hm a v,
    fun k hk => read_write_other s.mem hk v⟩⟩
  have hload := step_load (s := { s with pending := .load a :: rest, mem := Memory.write s.mem a v }) rfl ha hblock
  rw [runSteps_next (step_store hp ha hblock), runSteps_next hload, runSteps_zero, read_write_same hm]

/-- Settles O43: the bytes CPYBLK changes lie in its write footprint, which its checks admit. -/
theorem engineWritesOnlyAdmittedBytes : Obligations.EngineWritesOnlyAdmittedBytes := by
  intro i s t ht a hne
  rcases exec_mem_cases ht with hmem | ⟨-, hready, hmem⟩ <;> rw [hmem] at hne
  · exact absurd rfl hne
  · obtain ⟨row, hr, b, hb, rfl⟩ := exists_copyTo_of_read_copyRows_ne hne
    exact writable_of_ready hready hr hb

/-- Settles O51, by the accesses a step can have performed. -/
theorem whatChangesMemory : Obligations.WhatChangesMemory := by
  intro s t ht hne
  cases step_cases ht with
  | command i rest hp hexec =>
    rcases exec_mem_cases hexec with hmem | ⟨rfl, -, -⟩
    · exact absurd hmem hne
    · exact .inr ⟨rest, hp⟩
  | store a v rest _ hp => exact .inl ⟨a, v, rest, hp⟩
  | write r v rest => exact absurd (State.writeReg_mem r v _) hne
  | idle | illegal | reserved | read | load | reset => exact absurd rfl hne

end Sys2Proof.Machine

/-! The statements about the encoding (30_encoding.md): the opcode map, the register map, the register accesses of the host,
and the calls as the accesses they expand to. -/

namespace Sys2Proof

/-! ### The opcode map and the register map -/

/-- Each command has one legal word (30_encoding.md R64). -/
theorem decodeWord_eq_ok_iff (w : Word) (i : Instr) : decodeWord w = .ok i ↔ w = encode i :=
  ⟨eq_encode_of_decodeWord, fun h => h ▸ decodeWord_encode i⟩

/-- The legal words are 1 to 8 (30_encoding.md R64, R65). -/
theorem encode_range (i : Instr) : 1 ≤ (encode i).toNat ∧ (encode i).toNat ≤ 8 := by
  cases i <;> decide

theorem Reg.offset_lt (r : Reg) : r.offset < 0x50 := by
  cases r <;> decide

/-- The offsets from 0x50 on are reserved (30_encoding.md R61). -/
theorem ofOffset_reserved {off : Nat} (h : 0x50 ≤ off) : Reg.ofOffset off = none := by
  cases hr : Reg.ofOffset off with
  | none => rfl
  | some r =>
    have hoff := eq_offset_of_ofOffset hr
    have hlt := r.offset_lt
    omega

end Sys2Proof

namespace Sys2Proof.Machine

open Sys2Proof.Safety

/-! ### Values of the registers and of the bytes sent -/

theorem statusWord_eq (s : State) : s.statusWord = BitVec.ofNat 32 (s.code.toNat + if s.sticky then 256 else 0) := by
  rw [← statusWord_toNat, BitVec.ofNat_toNat, BitVec.setWidth_eq]

theorem extentWord_eq (s : State) : s.extentWord = BitVec.ofNat 32 (s.extW % 65536 + 65536 * (s.extH % 65536)) := by
  rw [Nat.add_comm, Nat.mul_comm, ← extentWord_toNat, BitVec.ofNat_toNat, BitVec.setWidth_eq]

/-- A 16-bit value is its high byte and its low byte. -/
theorem half_bytes (a : Half) : (a.extractLsb' 8 8).toNat * 256 + (a.extractLsb' 0 8).toNat = a.toNat := by
  have ha := a.isLt
  simp only [BitVec.extractLsb'_toNat, Nat.shiftRight_eq_div_pow]
  omega

/-- The bytes of the low half of a word, exchanged, as the word a read of RES returns. -/
theorem swap16_low_word (v : Word) :
    (swap16 (v.setWidth 16)).setWidth 32 = BitVec.ofNat 32 (v.toNat % 256 * 256 + v.toNat / 256 % 256) := by
  have hlow : v.toNat % 2 ^ 16 % 256 = v.toNat % 256 := by omega
  have hhigh : v.toNat % 2 ^ 16 / 256 = v.toNat / 256 % 256 := by omega
  rw [← BitVec.ofNat_toNat, swap16_toNat, BitVec.toNat_setWidth, hlow, hhigh]

/-! ### What a read at an offset answers -/

theorem readOffset_eq_readReg (s : State) {off : Nat} {r : Reg} (h : off = r.offset) : s.readOffset off = s.readReg r := by
  rw [h, State.readOffset, ofOffset_offset]

theorem readOffset_reserved (s : State) {off : Nat} (h : 0x50 ≤ off) : s.readOffset off = 0 := by
  rw [State.readOffset, ofOffset_reserved h]

/-- A 16-bit register reads zero-extended (10_state.md R11). -/
theorem readOffset_half {s : State} {off : Nat} {r : Reg} {x : Half} (h : off = r.offset)
    (hr : s.readReg r = x.setWidth 32) : (s.readOffset off).toNat = x.toNat := by
  rw [readOffset_eq_readReg s h, hr, BitVec.toNat_setWidth_of_le (by decide)]

theorem readOffset_pending (s : State) (p : List HostAccess) (off : Nat) :
    State.readOffset { s with pending := p } off = s.readOffset off := by
  unfold State.readOffset
  cases Reg.ofOffset off with
  | none => rfl
  | some r => exact readReg_pending s p r

/-! ### Single register accesses -/

theorem step_read {s : State} {off : Nat} {rest : List HostAccess} (hp : s.pending = .read off .w32 :: rest)
    (halign : off % 4 = 0) (hblock : off < 0x100) :
    step s = .next { s with pending := rest, replies := s.replies ++ [.reg (s.readOffset off)] } := by
  simp only [step_of_pending hp, hostAccess, accessRefusal_none.mpr ⟨hblock, rfl, halign⟩, readOffset_pending]

/-- A write to a reserved offset is ignored (30_encoding.md R62). -/
theorem step_write_reserved {s : State} {off : Nat} {v : Word} {rest : List HostAccess}
    (hp : s.pending = .write off .w32 v :: rest) (halign : off % 4 = 0) (hblock : off < 0x100) (hres : 0x50 ≤ off) :
    step s = .next { s with pending := rest } := by
  simp only [step_of_pending hp, hostAccess, accessRefusal_none.mpr ⟨hblock, rfl, halign⟩, writeOffset,
    ofOffset_reserved hres]

/-- A write or a read that is no step of the host (30_encoding.md R62). -/
theorem step_refused {s : State} {off : Nat} {width : AccessWidth} {v : Word} {rest : List HostAccess} {r : Refusal}
    (hp : s.pending = .write off width v :: rest ∨ s.pending = .read off width :: rest)
    (hr : accessRefusal off width = some r) : step s = .refused r := by
  rcases hp with hp | hp <;> simp only [step_of_pending hp, hostAccess, hr]

theorem accessRefusal_outside {off : Nat} (width : AccessWidth) (h : 0x100 ≤ off) :
    accessRefusal off width = some .outsideBlock := if_pos h

theorem accessRefusal_narrow {off : Nat} {width : AccessWidth} (hblock : off < 0x100) (hwidth : width ≠ .w32) :
    accessRefusal off width = some .narrowAccess := by
  rw [accessRefusal, if_neg hblock.not_ge, if_pos hwidth]

theorem accessRefusal_misaligned {off : Nat} (hblock : off < 0x100) (halign : off % 4 ≠ 0) :
    accessRefusal off .w32 = some .misalignedOffset := by
  rw [accessRefusal, if_neg hblock.not_ge, if_neg (not_not.mpr rfl), if_pos halign]

/-- An illegal word written to CMD (30_encoding.md R65, 60_exceptions.md R133). -/
theorem writeCmd_illegal {w : Word} (h : w.toNat = 0 ∨ 8 < w.toNat) (s : State) : writeCmd w s = .next (s.raise .op) := by
  rcases writeCmd_cases w s with ⟨i, rfl, -⟩ | hraise
  · have := encode_range i
    omega
  · exact hraise

/-! ### A call: register writes, then a command -/

theorem runSteps_one (s : State) : runSteps 1 s = step s := by
  cases h : step s with
  | next t => rw [runSteps_next h, runSteps_zero]
  | fault r => rw [runSteps_fault h]
  | refused r => rw [runSteps_refused h]

theorem step_cmd {s : State} {i : Instr} {rest : List HostAccess} (h : s.pending = cmd i :: rest) :
    step s = exec i { s with pending := rest } := by
  rw [step_of_pending h, hostAccess_cmd]

/-- The state after a list of register writes, the first one first. -/
def State.writeRegs (l : List (Reg × Word)) (s : State) : State := l.foldl (fun s p => s.writeReg p.1 p.2) s

@[simp] theorem State.writeRegs_nil (s : State) : State.writeRegs [] s = s := rfl

@[simp] theorem State.writeRegs_cons (p : Reg × Word) (l : List (Reg × Word)) (s : State) :
    State.writeRegs (p :: l) s = State.writeRegs l (s.writeReg p.1 p.2) := rfl

/-- A register write does not depend on the accesses that are pending. -/
theorem writeReg_setPending (r : Reg) (v : Word) (s : State) (p q : List HostAccess) :
    { State.writeReg r v { s with pending := p } with pending := q } = State.writeReg r v { s with pending := q } := by
  cases r <;> rfl

/-- A run of register writes and a command is the command at the state the writes leave (30_encoding.md R72). -/
theorem runSteps_writes_cmd (l : List (Reg × Word)) (hl : ∀ p ∈ l, p.1 ≠ .CMD) {i : Instr} {s : State}
    {rest : List HostAccess} (hp : s.pending = l.map (fun p => wr p.1 p.2) ++ cmd i :: rest) :
    runSteps (l.length + 1) s = exec i (State.writeRegs l { s with pending := rest }) := by
  induction l generalizing s with
  | nil => exact (runSteps_one s).trans (step_cmd hp)
  | cons p l ih =>
    obtain ⟨hr, hl⟩ := List.forall_mem_cons.mp hl
    have hrun := (runSteps_wr (n := l.length + 1) hp hr).trans (ih hl (State.writeReg_pending _ _ _))
    rw [writeReg_setPending] at hrun
    exact hrun

/-- SWAP16 completes from every state (40_scalar.md R82). -/
theorem exec_swap16 (s : State) : exec .swap16 s = .next { s with res := swap16 s.arg, code := 0 } :=
  exec_of_none rfl

/-- GLUT completes from every state (40_scalar.md R84). -/
theorem exec_glut (s : State) : exec .glut s = .next { s with res := gray565 s.cfg (s.arg.setWidth 8), code := 0 } :=
  exec_of_none rfl

/-- A call that writes ARG, issues a command which puts a result into RES, and reads RES, answers that result. -/
theorem scalarCall_answers {s : State} {v : Word} {i : Instr} {rest : List HostAccess} {result : State → Half}
    (hp : s.pending = [wr .ARG v, cmd i, rd .RES] ++ rest)
    (hexec : ∀ t, exec i t = .next { t with res := result t, code := 0 }) :
    ∃ t, runSteps 3 s = .next t ∧ t.pending = rest ∧
      t.replies = s.replies ++
        [.reg ((result { s with pending := rd .RES :: rest, arg := v.setWidth 16 }).setWidth 32)] := by
  have hcmd := (step_cmd (s := { s with pending := cmd i :: rd .RES :: rest, arg := v.setWidth 16 }) rfl).trans (hexec _)
  exact ⟨_, (runSteps_wr hp (by decide)).trans ((runSteps_next hcmd).trans (runSteps_rd rfl)), rfl, rfl⟩

/-! ### The obligations of tier 1 -/

/-- Settles O2: the legal words are the encoder's, and the three others select no row. -/
theorem opcodeMapWords : Obligations.OpcodeMapWords :=
  ⟨decodeWord_encode .pic, decodeWord_encode .pics, decodeWord_encode .roi, decodeWord_encode .gray,
    decodeWord_encode .grayroi, decodeWord_encode .cpyblk, decodeWord_encode .swap16, decodeWord_encode .glut,
    by decide, by decide, by decide⟩

/-- Settles O3: the look-up inverts the offset, and every register's offset is below 0x50. -/
theorem registerMapRoundTrip : Obligations.RegisterMapRoundTrip :=
  ⟨ofOffset_offset, fun _ _ => eq_offset_of_ofOffset, fun _ => ofOffset_reserved⟩

/-- Settles O6: a word outside 1 to 8 is no command's. -/
theorem illegalWordEndsWithEOp : Obligations.IllegalWordEndsWithEOp := by
  intro s w rest hp hw
  rw [step_cmdWord hp, writeCmd_illegal hw, raise_eq]
  rfl

/-- Settles O17, by the order in which the refusals are tried. -/
theorem otherRegisterAccessRefused : Obligations.OtherRegisterAccessRefused := by
  intro s off width v rest hp
  refine ⟨fun hout => step_refused hp (accessRefusal_outside width hout),
    fun hblock hwidth => step_refused hp (accessRefusal_narrow hblock hwidth), ?_⟩
  rintro hblock rfl halign
  exact step_refused hp (accessRefusal_misaligned hblock halign)

/-- Settles O54: each coordinate is its high byte, then its low byte. -/
theorem windowBytesAreBigEndian : Obligations.WindowBytesAreBigEndian :=
  fun a b => ⟨_, _, _, _, rfl, half_bytes a, half_bytes b⟩

/-! ### The obligations of tier 2 -/

/-- Settles O1: the decoder inverts the encoder, whose words are the rows of the opcode map. -/
theorem eachCommandHasOneWord : Obligations.EachCommandHasOneWord := by
  refine ⟨fun i _ => decodeWord_encode i, fun w i => ?_⟩
  rw [decodeWord_eq_ok_iff, ← BitVec.toNat_inj]
  cases i <;> rfl

/-- Settles O10: the reply is the register at the offset, whatever it is. -/
theorem registerReadHasNoSideEffect : Obligations.RegisterReadHasNoSideEffect := by
  intro s off rest hp halign hblock
  exact ⟨s.readOffset off, step_read hp halign hblock,
    (readOffset_eq_readReg s (r := .CMD) ·), readOffset_reserved s,
    fun h => (readOffset_eq_readReg s (r := .STATUS) h).trans (statusWord_eq s),
    fun h => (readOffset_eq_readReg s (r := .ORIENT) h).trans (BitVec.ofNat_toNat 32 s.orient).symm,
    fun h => (readOffset_eq_readReg s (r := .EXTENT) h).trans (extentWord_eq s),
    (readOffset_half (r := .DX) · rfl), (readOffset_half (r := .DY) · rfl),
    (readOffset_half (r := .DW) · rfl), (readOffset_half (r := .DH) · rfl),
    (readOffset_half (r := .SW) · rfl), (readOffset_half (r := .SH) · rfl),
    (readOffset_half (r := .RX) · rfl), (readOffset_half (r := .RY) · rfl),
    (readOffset_half (r := .RWD) · rfl), (readOffset_half (r := .RHT) · rfl),
    (readOffset_eq_readReg s (r := .SRC) ·), (readOffset_eq_readReg s (r := .DST) ·),
    (readOffset_half (r := .SSTR) · rfl), (readOffset_half (r := .DSTR) · rfl),
    (readOffset_half (r := .ARG) · rfl), (readOffset_half (r := .RES) · rfl)⟩

/-- Settles O13: EXTENT and RES are read-only, and every other offset from 0x4C on is reserved. -/
theorem readOnlyWriteIgnored : Obligations.ReadOnlyWriteIgnored := by
  intro s off v rest hp halign hblock hoff
  have hcase : off = 0x0C ∨ off = 0x4C ∨ 0x50 ≤ off := by omega
  rcases hcase with rfl | rfl | hres
  · exact step_wr (r := .EXTENT) hp (by decide)
  · exact step_wr (r := .RES) hp (by decide)
  · exact step_write_reserved hp halign hblock hres

/-- Settles O24: both are a scalar call; the command keeps the low half, or the low byte, of the parameter. -/
theorem scalarCallsAnswer : Obligations.ScalarCallsAnswer := by
  intro s v rest
  refine ⟨fun hp => ?_, fun hp => ?_⟩
  · rw [← swap16_low_word]
    exact scalarCall_answers hp exec_swap16
  · have hbyte : BitVec.ofNat 8 v.toNat = (v.setWidth 16).setWidth 8 := by
      rw [BitVec.ofNat_toNat, BitVec.setWidth_setWidth_of_le v (by decide)]
    rw [hbyte, ← gray565_eq]
    exact scalarCall_answers hp exec_glut

/-- Settles O25: each call is a list of register writes and a command. -/
theorem callsProgramTheirRegisters : Obligations.CallsProgramTheirRegisters := by
  intro s rest a b c d e f g h k
  refine ⟨fun hp => ?_, fun hp => ?_, fun hp => ?_, fun hp => ?_, fun hp => ?_, fun hp => ?_⟩
  · simpa [State.writeReg] using runSteps_writes_cmd
      [(.DX, a), (.DY, b), (.DW, c), (.DH, d), (.SRC, e)] (by simp) hp
  · simpa [State.writeReg] using runSteps_writes_cmd
      [(.DX, a), (.DY, b), (.DW, c), (.DH, d), (.SW, e), (.SH, f), (.SRC, g)] (by simp) hp
  · simpa [State.writeReg] using runSteps_writes_cmd
      [(.DX, a), (.DY, b), (.SW, c), (.SH, d), (.RX, e), (.RY, f), (.RWD, g), (.RHT, h), (.SRC, k)] (by simp) hp
  · simpa [State.writeReg] using runSteps_writes_cmd
      [(.DX, a), (.DY, b), (.DW, c), (.DH, d), (.SRC, e)] (by simp) hp
  · simpa [State.writeReg] using runSteps_writes_cmd
      [(.DX, a), (.DY, b), (.SW, c), (.SH, d), (.RX, e), (.RY, f), (.RWD, g), (.RHT, h), (.SRC, k)] (by simp) hp
  · simpa [State.writeReg] using runSteps_writes_cmd
      [(.DST, a), (.DSTR, b), (.SRC, c), (.SSTR, d), (.SW, e), (.SH, f), (.DX, g), (.DY, h)] (by simp) hp

end Sys2Proof.Machine

/-! The statements of the scalar commands (40_scalar.md): the laws of `swap16`, and what SWAP16 and GLUT do to every state. -/

namespace Sys2Proof.Machine

open Sys2Proof.Safety

/-! ### The two bytes of a 16-bit value -/

theorem highByte_toNat (v : Half) : (v.extractLsb' 8 8).toNat = v.toNat / 256 := by
  have hv := v.isLt
  rw [BitVec.extractLsb'_toNat, Nat.shiftRight_eq_div_pow]
  omega

theorem lowByte_toNat (v : Half) : (v.extractLsb' 0 8).toNat = v.toNat % 256 := by
  rw [BitVec.extractLsb'_toNat, Nat.shiftRight_zero]

/-- Two 16-bit values are equal exactly when both their bytes are. -/
theorem half_eq_iff_bytes (a b : Half) :
    a = b ↔ a.extractLsb' 8 8 = b.extractLsb' 8 8 ∧ a.extractLsb' 0 8 = b.extractLsb' 0 8 := by
  refine ⟨by rintro rfl; exact ⟨rfl, rfl⟩, fun ⟨hhigh, hlow⟩ => ?_⟩
  rw [← BitVec.toNat_inj, ← half_bytes a, ← half_bytes b, hhigh, hlow]

/-! ### The laws of swap16 (40_scalar.md R80, R81) -/

@[simp] theorem swap16_highByte (v : Half) : (swap16 v).extractLsb' 8 8 = v.extractLsb' 0 8 := by
  have hv := v.isLt
  rw [← BitVec.toNat_inj, highByte_toNat, lowByte_toNat, swap16_toNat]
  omega

@[simp] theorem swap16_lowByte (v : Half) : (swap16 v).extractLsb' 0 8 = v.extractLsb' 8 8 := by
  have hv := v.isLt
  rw [← BitVec.toNat_inj, highByte_toNat, lowByte_toNat, swap16_toNat]
  omega

theorem swap16_involutive : Function.Involutive swap16 := fun v => by
  simp [half_eq_iff_bytes]

theorem swap16_eq_self_iff (v : Half) : swap16 v = v ↔ v.extractLsb' 8 8 = v.extractLsb' 0 8 := by
  rw [half_eq_iff_bytes, swap16_highByte, swap16_lowByte, eq_comm, and_self_iff]

/-! ### The obligations of tier 1 -/

/-- Settles O21: an involution is a bijection, and the other laws compare bytes. -/
theorem swapLaws : Obligations.SwapLaws :=
  ⟨swap16_involutive.bijective, fun v =>
    ⟨swap16_highByte v, swap16_lowByte v, swap16_involutive v, swap16_eq_self_iff v⟩⟩

/-- Settles O22: no check of SWAP16 can fail, and its result is `swap16` as a number. -/
theorem swap16Result : Obligations.Swap16Result := by
  refine ⟨decodeWord_encode .swap16, fun s => ?_⟩
  rw [exec_swap16, ← swap16_toNat, BitVec.ofNat_toNat, BitVec.setWidth_eq]

/-- Settles O23: no check of GLUT can fail, and its index is a quarter of ARG's low byte. -/
theorem glutResult : Obligations.GlutResult := by
  refine ⟨decodeWord_encode .glut, fun s => ?_⟩
  rw [exec_glut, gray565_eq]
  simp only [grayColour, BitVec.toNat_setWidth, Nat.reducePow]

end Sys2Proof.Machine

/-! The statements of the staged blit commands (41_staged_blit.md): what PIC, PICS and GRAY do to every state whose operands pass
their checks, where they end in an error, and that PICS stays inside its source. -/

namespace Sys2Proof.Machine

open Sys2Proof.Safety

/-! ### A staged blit that completes -/

/-- CAP is even (00_scope.md R4). -/
theorem cap_even {c : Config} (hc : c.Valid) : c.cap % 2 = 0 := by
  obtain ⟨-, -, ⟨heven, -⟩, -⟩ := hc
  exact heven

/-- A command whose checks pass, as the fields it leaves. -/
theorem exec_completed {s : State} (hc : s.cfg.Valid) {i : Instr} (h : firstError (commandChecks s i) = none) :
    exec i s = .next { s with
      stage := commandStage s i
      out := s.out ++ commandEvents s i
      mem := commandMemory s i
      res := commandResult s i
      code := 0 } := by
  rw [exec_of_none h, commandEffect_eq hc h]
  rfl

theorem writeStage_map (s : State) (n : Nat) (f : Nat → Half) :
    (s.writeStage ((List.range n).map f)).stage = (List.range n).map f ++ s.stage.drop n := by simp

/-- A remap of CAP slots leaves no old slot (41_staged_blit.md R92). -/
theorem writeStage_map_full {s : State} (hstage : s.stage.length = s.cfg.cap) (f : Nat → Half) :
    (s.writeStage ((List.range s.cfg.cap).map f)).stage = (List.range s.cfg.cap).map f := by
  rw [writeStage_map, List.drop_of_length_le hstage.le, List.append_nil]

/-- The window and the first DW*DH of the slots written (R93). -/
theorem blitEvents_map {s : State} {n : Nat} (hn : s.dw.toNat * s.dh.toNat ≤ n) (f : Nat → Half) :
    blitEvents s ((List.range n).map f) = [windowOf s.dx.toNat s.dy.toNat s.dw.toNat s.dh.toNat,
      .data16 ((List.range (s.dw.toNat * s.dh.toNat)).map f)] := by
  rw [blitEvents, windowAt_eq, Nat.add_zero, ← List.map_take, List.take_range, Nat.min_eq_left hn]

/-! ### The first failing check of each command -/

/-- The checks of PIC, in order (41_staged_blit.md R91). -/
theorem firstError_pic (s : State) : firstError (commandChecks s .pic) =
    if s.dw = 0 ∨ s.dh = 0 then some .zero
    else if s.cfg.cap < s.dw.toNat * s.dh.toNat then some .cap
    else if OutsidePanel s s.dw.toNat s.dh.toNat then some .coord
    else if s.src.toNat % 2 = 1 then some .align
    else if Unreadable s.cfg s.src.toNat (2 * s.cfg.cap) then some .bus
    else none := by
  simp only [commandChecks, State.picChecks, firstError, zeroSize_iff, decide_eq_true_eq, gt_iff_lt, coordFails_iff, align_iff,
    picUnreadable_iff]

/-- The checks of PICS, in order (R96). -/
theorem firstError_pics (s : State) : firstError (commandChecks s .pics) =
    if s.dw = 0 ∨ s.dh = 0 ∨ s.sw = 0 ∨ s.sh = 0 then some .zero
    else if s.dw.toNat % 2 = 1 then some .odd
    else if s.cfg.cap < s.dw.toNat * s.dh.toNat then some .cap
    else if OutsidePanel s s.dw.toNat s.dh.toNat then some .coord
    else if s.src.toNat % 2 = 1 then some .align
    else if PicsUnreadable s then some .bus
    else none := by
  simp only [commandChecks, State.picsChecks, firstError, Bool.or_eq_true, beq_iff_eq, or_assoc, getLsbD_zero_eq,
    decide_eq_true_eq, gt_iff_lt, coordFails_iff, picsUnreadable_iff]

/-- The checks of GRAY, in order (R101). -/
theorem firstError_gray (s : State) : firstError (commandChecks s .gray) =
    if s.dw = 0 ∨ s.dh = 0 then some .zero
    else if s.cfg.cap < s.dw.toNat * s.dh.toNat then some .cap
    else if OutsidePanel s s.dw.toNat s.dh.toNat then some .coord
    else if Unreadable s.cfg s.src.toNat s.cfg.cap then some .bus
    else none := by
  simp only [commandChecks, State.grayChecks, firstError, zeroSize_iff, decide_eq_true_eq, gt_iff_lt, coordFails_iff,
    grayUnreadable_iff]

/-! ### What PICS samples -/

/-- Exchanging the elements of a pair keeps an even offset. -/
theorem two_mul_add_xor_one (m r : Nat) : (2 * m + r) ^^^ 1 = 2 * m + (r ^^^ 1) := by
  obtain ⟨k, rfl | rfl⟩ := Nat.even_or_odd' r
  · rw [← Nat.mul_add, even_xor_one, even_xor_one, Nat.mul_add, Nat.add_assoc]
  · rw [← Nat.add_assoc, ← Nat.mul_add, odd_xor_one, odd_xor_one, Nat.mul_add]

/-- Floor scaling maps an index below `d` to an index below `n` (41_staged_blit.md R99). -/
theorem scale_lt {x d n : Nat} (hx : x < d) (hn : 0 < n) : x * n / d < n :=
  Nat.div_lt_of_lt_mul (Nat.mul_lt_mul_of_pos_right hx hn)

theorem scaledIndex_lt {s : State} (hsw : s.sw ≠ 0) (hsh : s.sh ≠ 0) {xx yy : Nat} (hx : xx < s.dw.toNat)
    (hy : yy < s.dh.toNat) : s.scaledIndex xx yy < s.sw.toNat * s.sh.toNat := by
  have hcol := scale_lt hx (show 0 < s.sw.toNat by bv_omega)
  have hrow := scale_lt hy (show 0 < s.sh.toNat by bv_omega)
  calc s.scaledIndex xx yy < yy * s.sh.toNat / s.dh.toNat * s.sw.toNat + s.sw.toNat := Nat.add_lt_add_left hcol _
    _ = (yy * s.sh.toNat / s.dh.toNat + 1) * s.sw.toNat := (Nat.succ_mul _ _).symm
    _ ≤ s.sh.toNat * s.sw.toNat := Nat.mul_le_mul_right _ hrow
    _ = s.sw.toNat * s.sh.toNat := Nat.mul_comm _ _

/-- The slots of `n` pairs depend on the first `2 * n` elements only. -/
theorem stagePairs_congr_lt {n : Nat} {f g : Nat → Half} (h : ∀ j, j < 2 * n → f j = g j) :
    stagePairs n f = stagePairs n g := by
  refine List.flatMap_congr fun k hk => ?_
  have hk' := List.mem_range.mp hk
  rw [h (2 * k + 1) (by omega), h (2 * k) (by omega)]

/-- The remap of PICS reads no byte outside its SW by SH source. -/
theorem picsSlots_withMemory {s : State} (hsw : s.sw ≠ 0) (hsh : s.sh ≠ 0) {m : Memory}
    (hm : ∀ a, s.src.toNat ≤ a → a < s.src.toNat + 2 * (s.sw.toNat * s.sh.toNat) → Memory.read m a = Memory.read s.mem a) :
    { s with mem := m }.picsSlots = s.picsSlots := by
  refine List.flatMap_congr fun yy hy => stagePairs_congr_lt fun xx hx => ?_
  have hx' : xx < s.dw.toNat := by change xx < 2 * (s.dw.toNat / 2) at hx; omega
  have hlt := scaledIndex_lt hsw hsh hx' (List.mem_range.mp hy)
  rw [picsPixel_eq, picsPixel_eq]
  change swappedPixel m (s.src.toNat + 2 * s.scaledIndex xx yy) = swappedPixel s.mem (s.src.toNat + 2 * s.scaledIndex xx yy)
  rw [swappedPixel, swappedPixel, hm _ (by omega) (by omega), hm _ (by omega) (by omega)]

/-- At identity scale the source index is the destination's own (41_staged_blit.md R99). -/
theorem sampleIndex_identity {s : State} (hz : ¬(s.dw = 0 ∨ s.dh = 0)) (hw : s.sw = s.dw) (hh : s.sh = s.dh) (xx yy : Nat) :
    sampleIndex s xx yy = yy * s.dw.toNat + xx := by
  have hpos : 0 < s.dw.toNat ∧ 0 < s.dh.toNat := by rw [not_or] at hz; bv_omega
  rw [sampleIndex, hw, hh, Nat.mul_div_cancel _ hpos.1, Nat.mul_div_cancel _ hpos.2]

/-- At identity scale, with an even width, PICS fills a slot from the pixel PIC fills it from. -/
theorem picsSlot_identity {s : State} (hz : ¬(s.dw = 0 ∨ s.dh = 0)) (heven : s.dw.toNat % 2 = 0) (hw : s.sw = s.dw)
    (hh : s.sh = s.dh) (j : Nat) : picsSlot s j = picSlot s j := by
  obtain ⟨e, he⟩ := Nat.dvd_of_mod_eq_zero heven
  have hindex : j / s.dw.toNat * s.dw.toNat + ((j % s.dw.toNat) ^^^ 1) = j ^^^ 1 := by
    conv_rhs => rw [← Nat.div_add_mod j s.dw.toNat]
    rw [he, Nat.mul_assoc, two_mul_add_xor_one]
    ring
  rw [picsSlot, sampleIndex_identity hz hw hh, hindex, picSlot]

/-! ### The obligations -/

/-- Settles O26: the CAP/2 pairs of the remap in closed form fill STAGE. -/
theorem picResult : Obligations.PicResult := by
  intro s hc hstage hready
  have hexec := exec_completed hc ((picReady_iff s).mpr hready)
  obtain ⟨-, hcap, -⟩ := hready
  rw [hexec, commandStage, commandEvents, picSlots_eq s (cap_even hc),
    writeStage_map_full hstage, blitEvents_map hcap]
  rfl

/-- Settles O27: the DW/2 pairs of each of the DH rows in closed form. -/
theorem picsResult : Obligations.PicsResult := by
  intro s hc _ hready
  have hexec := exec_completed hc ((picsReady_iff s).mpr hready)
  obtain ⟨-, heven, -⟩ := hready
  rw [hexec, commandStage, commandEvents, picsSlots_eq s heven, writeStage_map, blitEvents_map le_rfl]
  rfl

/-- Settles O28: the CAP/2 pairs of samples looked up, in closed form, fill STAGE. -/
theorem grayResult : Obligations.GrayResult := by
  intro s hc hstage hready
  have hexec := exec_completed hc ((grayReady_iff s).mpr hready)
  obtain ⟨-, hcap, -⟩ := hready
  rw [hexec, commandStage, commandEvents, graySlots_eq s _ (cap_even hc),
    writeStage_map_full hstage, blitEvents_map hcap]
  rfl

/-- Settles O32, clause by clause along the chain of `firstError_pic`. -/
theorem picErrors : Obligations.PicErrors := fun s =>
  ⟨fun hz => exec_of_some (by rw [firstError_pic, if_pos hz]),
    fun hz hc => exec_of_some (by rw [firstError_pic, if_neg hz, if_pos hc]),
    fun hz hc hp => exec_of_some (by rw [firstError_pic, if_neg hz, if_neg hc, if_pos hp]),
    fun hz hc hp ha => exec_of_some (by rw [firstError_pic, if_neg hz, if_neg hc, if_neg hp, if_pos ha]),
    fun hz hc hp ha hb => exec_of_some (by rw [firstError_pic, if_neg hz, if_neg hc, if_neg hp, if_neg ha, if_pos hb])⟩

/-- Settles O33, clause by clause along the chain of `firstError_pics`. -/
theorem picsErrors : Obligations.PicsErrors := fun s =>
  ⟨fun hz => exec_of_some (by rw [firstError_pics, if_pos hz]),
    fun hz ho => exec_of_some (by rw [firstError_pics, if_neg hz, if_pos ho]),
    fun hz ho hc => exec_of_some (by rw [firstError_pics, if_neg hz, if_neg ho, if_pos hc]),
    fun hz ho hc hp => exec_of_some (by rw [firstError_pics, if_neg hz, if_neg ho, if_neg hc, if_pos hp]),
    fun hz ho hc hp ha => exec_of_some (by
      rw [firstError_pics, if_neg hz, if_neg ho, if_neg hc, if_neg hp, if_pos ha]),
    fun hz ho hc hp ha hb => exec_of_some (by
      rw [firstError_pics, if_neg hz, if_neg ho, if_neg hc, if_neg hp, if_neg ha, if_pos hb])⟩

/-- Settles O34, clause by clause along the chain of `firstError_gray`. -/
theorem grayErrors : Obligations.GrayErrors := fun s =>
  ⟨fun hz => exec_of_some (by rw [firstError_gray, if_pos hz]),
    fun hz hc => exec_of_some (by rw [firstError_gray, if_neg hz, if_pos hc]),
    fun hz hc hp => exec_of_some (by rw [firstError_gray, if_neg hz, if_neg hc, if_pos hp]),
    fun hz hc hp hb => exec_of_some (by rw [firstError_gray, if_neg hz, if_neg hc, if_neg hp, if_pos hb])⟩

/-- Settles O38: the window's sides are bounded by the extent's, whose area is CAP. -/
theorem windowInsidePanelFitsStage : Obligations.WindowInsidePanelFitsStage := by
  refine fun s hc => ⟨extent_area s hc, fun w h hw hh hpanel => ?_⟩
  rw [OutsidePanel, not_or] at hpanel
  have hwidth : w ≤ s.extW + 1 := by omega
  have hheight : h ≤ s.extH + 1 := by omega
  exact ⟨hwidth, hheight, (Nat.mul_le_mul hwidth hheight).trans_eq (extent_area s hc)⟩

/-- Settles O39: floor scaling stays below SW and SH, so the remap and the checks see no byte outside the source. -/
theorem picsSamplesInsideSource : Obligations.PicsSamplesInsideSource := by
  intro s _ _ hsw hsh
  refine ⟨fun p hp => ?_, fun xx hx yy hy => scaledIndex_lt hsw hsh hx hy, by simp [State.scaledIndex], fun m hm => ?_⟩
  · simp only [State.readFootprint, List.mem_flatMap, List.mem_map, List.mem_range] at hp
    obtain ⟨yy, hy, xx, hx, rfl⟩ := hp
    have hlt := scaledIndex_lt hsw hsh hx hy
    dsimp only
    omega
  · refine exec_map (fun t => { t with mem := m }) s .pics rfl (fun _ => rfl) ?_
    dsimp only [commandEffect]
    rw [picsSlots_withMemory hsw hsh hm]
    rfl

/-- Settles O47: the two commands append the same window and, slot by slot, the same data. -/
theorem identityScaleIsPic : Obligations.IdentityScaleIsPic := by
  intro s hc hpic hpics hw hh
  refine ⟨_, _, exec_completed hc ((picReady_iff s).mpr hpic), exec_completed hc ((picsReady_iff s).mpr hpics), ?_⟩
  obtain ⟨hsize, hcap, -⟩ := hpic
  obtain ⟨-, heven, -⟩ := hpics
  have hslot : picsSlot s = picSlot s := funext (picsSlot_identity hsize heven hw hh)
  dsimp only [commandEvents]
  rw [picSlots_eq s (cap_even hc), picsSlots_eq s heven, blitEvents_map hcap, blitEvents_map le_rfl, hslot]

end Sys2Proof.Machine

/-! The statements of the region-of-interest commands (42_roi.md): what ROI and GRAYROI do to every state whose operands pass
their checks, where they end in an error, and that GRAYROI of one line is GRAY. -/

namespace Sys2Proof.Machine

open Sys2Proof.Safety

/-! ### The first failing check of each command -/

/-- The checks of ROI, in order (42_roi.md R112). -/
theorem firstError_roi (s : State) : firstError (commandChecks s .roi) =
    if s.rwd = 0 ∨ s.rht = 0 then some .zero
    else if OutsidePanel s s.rwd.toNat s.rht.toNat then some .coord
    else if OutsideSource s then some .roi
    else if RoiUnreadable s then some .bus
    else none := by
  simp only [commandChecks, State.roiChecks, firstError, zeroSize_iff, coordFails_iff, regionFails_iff, roiUnreadable_iff]

/-- The checks of GRAYROI, in order (R115). -/
theorem firstError_grayRoi (s : State) : firstError (commandChecks s .grayroi) =
    if s.rwd = 0 ∨ s.rht = 0 then some .zero
    else if s.cfg.cap < s.rwd.toNat then some .cap
    else if OutsidePanel s s.rwd.toNat s.rht.toNat then some .coord
    else if OutsideSource s then some .roi
    else if GrayRoiUnreadable s then some .bus
    else none := by
  simp only [commandChecks, State.grayRoiChecks, firstError, zeroSize_iff, decide_eq_true_eq, gt_iff_lt, coordFails_iff,
    regionFails_iff, grayRoiUnreadable_iff]

/-! ### The lines of a region -/

/-- A line of ROI, its bytes from the address the rule gives (R111). -/
theorem roiEvents_eq (s : State) (line : Nat) : roiEvents s line =
    [windowOf s.dx.toNat (s.dy.toNat + line) s.rwd.toNat 1,
      .data8 ((List.range (2 * s.rwd.toNat)).map fun k => Memory.read s.mem (roiByte s line + k))] := by
  rw [roiEvents, windowAt_eq]
  rfl

/-- A line of GRAYROI streams the first RWD of the slots of its remap (R114). -/
theorem grayRoiEvents_eq {s : State} (heven : s.cfg.cap % 2 = 0) (hcap : s.rwd.toNat ≤ s.cfg.cap) (line : Nat) :
    grayRoiEvents s line = [windowOf s.dx.toNat (s.dy.toNat + line) s.rwd.toNat 1,
      .data16 ((List.range s.rwd.toNat).map (graySlot s (grayRoiByte s line)))] := by
  rw [grayRoiEvents, windowAt_eq, graySlots_eq s _ heven, ← List.map_take, List.take_range, Nat.min_eq_left hcap]
  rfl

/-- After at least one line STAGE holds the remap of the last one, which leaves no old slot (R114). -/
theorem grayRoiStage_eq {s : State} (heven : s.cfg.cap % 2 = 0) (hstage : s.stage.length = s.cfg.cap) {n : Nat}
    (hn : 0 < n) : grayRoiStage s n = (List.range s.cfg.cap).map (graySlot s (grayRoiByte s (n - 1))) := by
  obtain ⟨n, rfl⟩ := Nat.exists_eq_add_one_of_ne_zero hn.ne'
  have hfull : s.stage.length ≤ 2 * (s.cfg.cap / 2) := by omega
  rw [grayRoiStage, graySlots_eq s _ heven, List.drop_of_length_le hfull, List.append_nil]
  rfl

/-! ### GRAYROI of one line -/

/-- The state on which GRAY draws the first line of a region (R116). -/
def State.grayLine (s : State) : State :=
  { s with dw := s.rwd, dh := 1, src := BitVec.ofNat 32 (grayRoiByte s 0) }

theorem grayLine_src {s : State} (haddr : grayRoiByte s 0 < 2 ^ 32) : s.grayLine.src.toNat = grayRoiByte s 0 := by
  rw [State.grayLine, BitVec.toNat_ofNat, Nat.mod_eq_of_lt haddr]

theorem grayRoiUnreadable_one {s : State} (hrht : s.rht = 1) :
    GrayRoiUnreadable s ↔ Unreadable s.cfg (grayRoiByte s 0) s.cfg.cap := by
  simp [GrayRoiUnreadable, hrht]

/-- With the region inside the source, GRAYROI of one line fails the check that GRAY fails on that line. -/
theorem firstError_grayLine {s : State} (hrht : s.rht = 1) (hinside : ¬OutsideSource s) (haddr : grayRoiByte s 0 < 2 ^ 32) :
    firstError (commandChecks s.grayLine .gray) = firstError (commandChecks s .grayroi) := by
  have hzero : s.grayLine.dw = 0 ∨ s.grayLine.dh = 0 ↔ s.rwd = 0 ∨ s.rht = 0 := by rw [hrht]; rfl
  have harea : s.grayLine.dw.toNat * s.grayLine.dh.toNat = s.rwd.toNat := Nat.mul_one _
  have hpanel : OutsidePanel s.grayLine s.grayLine.dw.toNat s.grayLine.dh.toNat ↔
      OutsidePanel s s.rwd.toNat s.rht.toNat := by rw [hrht]; rfl
  have hbus : Unreadable s.grayLine.cfg s.grayLine.src.toNat s.grayLine.cfg.cap ↔ GrayRoiUnreadable s := by
    rw [grayLine_src haddr, grayRoiUnreadable_one hrht]; rfl
  rw [firstError_gray, firstError_grayRoi, if_neg hinside, harea]
  simp only [hzero, hpanel, hbus]
  rfl

/-- The one line of GRAYROI is the staged blit of GRAY. -/
theorem commandEffect_grayLine {s : State} (hrht : s.rht = 1) (haddr : grayRoiByte s 0 < 2 ^ 32) :
    commandEffect s .grayroi =
      { commandEffect s.grayLine .gray with dw := s.dw, dh := s.dh, src := s.src } := by
  rw [commandEffect, commandEffect, grayLine_src haddr, hrht]
  rfl

/-! ### The obligations -/

/-- Settles O29: no line of ROI reads what another leaves, so the lines' events follow each other. -/
theorem roiResult : Obligations.RoiResult := by
  intro s hready
  rw [exec_of_none ((roiReady_iff s).mpr hready), commandEffect, roiLines_eq, funext (roiEvents_eq s)]
  rfl

/-- Settles O30: each line's remap fills STAGE, so the last line's is what stays. -/
theorem grayRoiResult : Obligations.GrayRoiResult := by
  intro s hc hstage hready
  have hexec := exec_completed hc ((grayRoiReady_iff s).mpr hready)
  obtain ⟨hsize, hcap, -⟩ := hready
  have hlines : 0 < s.rht.toNat := by rw [not_or] at hsize; bv_omega
  rw [hexec, commandStage, commandEvents, grayRoiStage_eq (cap_even hc) hstage hlines,
    funext (grayRoiEvents_eq (cap_even hc) hcap)]
  rfl

/-- Settles O35, clause by clause along the chain of `firstError_roi`. -/
theorem roiErrors : Obligations.RoiErrors := fun s =>
  ⟨fun hz => exec_of_some (by rw [firstError_roi, if_pos hz]),
    fun hz hp => exec_of_some (by rw [firstError_roi, if_neg hz, if_pos hp]),
    fun hz hp hr => exec_of_some (by rw [firstError_roi, if_neg hz, if_neg hp, if_pos hr]),
    fun hz hp hr hb => exec_of_some (by rw [firstError_roi, if_neg hz, if_neg hp, if_neg hr, if_pos hb])⟩

/-- Settles O36, clause by clause along the chain of `firstError_grayRoi`. -/
theorem grayRoiErrors : Obligations.GrayRoiErrors := fun s =>
  ⟨fun hz => exec_of_some (by rw [firstError_grayRoi, if_pos hz]),
    fun hz hc => exec_of_some (by rw [firstError_grayRoi, if_neg hz, if_pos hc]),
    fun hz hc hp => exec_of_some (by rw [firstError_grayRoi, if_neg hz, if_neg hc, if_pos hp]),
    fun hz hc hp hr => exec_of_some (by rw [firstError_grayRoi, if_neg hz, if_neg hc, if_neg hp, if_pos hr]),
    fun hz hc hp hr hb => exec_of_some (by
      rw [firstError_grayRoi, if_neg hz, if_neg hc, if_neg hp, if_neg hr, if_pos hb])⟩

/-- Settles O48: both commands fail the same check, or make the same staged blit. -/
theorem oneLineGrayRoiIsGray : Obligations.OneLineGrayRoiIsGray := by
  intro s hrht hinside haddr
  have hchecks := firstError_grayLine hrht hinside haddr
  change _ = mapNext _ (exec .gray s.grayLine)
  rcases exec_cases .grayroi s with ⟨e, he, hs⟩ | ⟨hready, hs⟩
  · rw [hs, exec_of_some (hchecks.trans he)]
    rfl
  · rw [hs, exec_of_none (hchecks.trans hready), commandEffect_grayLine hrht haddr]
    rfl

end Sys2Proof.Machine

/-! The statements of the raw block copy (43_copy.md): what CPYBLK does to every state whose operands pass its checks, and where
it ends in an error. -/

namespace Sys2Proof.Machine

open Sys2Proof.Safety

/-- The checks of CPYBLK, in order (43_copy.md R122). -/
theorem firstError_cpyblk (s : State) : firstError (commandChecks s .cpyblk) =
    if s.sw = 0 ∨ s.sh = 0 then some .zero
    else if CopyOverlaps s then some .overlap
    else if CopyUnreachable s then some .bus
    else none := by
  simp only [commandChecks, State.copyChecks, firstError, zeroSize_iff, copyOverlaps_iff, copyUnreachable_iff]

/-- A block whose checks pass lands in its place, read from memory as it was before the command (R121). -/
theorem read_copyRows_copyTo {s : State} (hm : Memory.wf s.mem) (hready : CopyReady s) {row b : Nat}
    (hr : row < s.sh.toNat) (hb : b < 2 * s.sw.toNat) :
    Memory.read s.copyRows (copyTo s row b) = Memory.read s.mem (copyFrom s row b) := by
  have haddr : ∀ row, row < s.sh.toNat → ∀ b, b < 2 * s.sw.toNat → copyTo s row b < 2 ^ 32 := fun row hr b hb =>
    (writable_of_ready hready hr hb).left
  obtain ⟨-, hoverlap, -⟩ := hready
  exact copyRowsTo_read s hm hoverlap haddr s.sh.toNat le_rfl hr hb

/-! ### The obligations -/

/-- Settles O31: the rows copied are the only memory written, and the disjoint footprints make every read one of the old memory. -/
theorem cpyblkResult : Obligations.CpyblkResult := fun s hm hready =>
  ⟨s.copyRows, exec_of_none ((copyReady_iff s).mpr hready),
    fun _ hr _ hb => read_copyRows_copyTo hm hready hr hb,
    fun _ hother => copyRowsTo_read_other s s.sh.toNat hother⟩

/-- Settles O37, clause by clause along the chain of `firstError_cpyblk`. -/
theorem cpyblkErrors : Obligations.CpyblkErrors := fun s =>
  ⟨fun hz => exec_of_some (by rw [firstError_cpyblk, if_pos hz]),
    fun hz ho => exec_of_some (by rw [firstError_cpyblk, if_neg hz, if_pos ho]),
    fun hz ho hb => exec_of_some (by rw [firstError_cpyblk, if_neg hz, if_neg ho, if_pos hb])⟩

end Sys2Proof.Machine

/-! The statements about how a command ends (60_exceptions.md): all-or-nothing, the codes of each command, and what sets and what
clears STICKY. -/

namespace Sys2Proof.Machine

open Sys2Proof.Safety

/-! ### What a command leaves in CODE and STICKY -/

/-- The errors a command checks for, in the order of its checks (60_exceptions.md R130). -/
def commandErrors : Instr → List Err
  | .pic => [.zero, .cap, .coord, .align, .bus]
  | .pics => [.zero, .odd, .cap, .coord, .align, .bus]
  | .gray => [.zero, .cap, .coord, .bus]
  | .roi => [.zero, .coord, .roi, .bus]
  | .grayroi => [.zero, .cap, .coord, .roi, .bus]
  | .cpyblk => [.zero, .overlap, .bus]
  | .swap16 | .glut => []

theorem commandChecks_errors (s : State) (i : Instr) : (commandChecks s i).map Prod.snd = commandErrors i := by
  cases i <;> rfl

theorem mem_commandErrors_of_firstError {s : State} {i : Instr} {e : Err} (h : firstError (commandChecks s i) = some e) :
    e ∈ commandErrors i := by
  rw [← commandChecks_errors s]
  exact List.mem_map_of_mem (firstError_mem h)

/-- CODE after a command is OK or the code of one of its errors. -/
theorem exec_code_mem {i : Instr} {s t : State} (h : exec i s = .next t) :
    t.code.toNat ∈ 0 :: (commandErrors i).map fun e => e.code.toNat := by
  rcases exec_cases i s with ⟨e, he, ht⟩ | ⟨-, ht⟩ <;> obtain rfl := Host.Outcome.next.inj (h.symm.trans ht)
  · exact List.mem_cons_of_mem 0 (List.mem_map_of_mem (f := fun e => e.code.toNat) (mem_commandErrors_of_firstError he))
  · exact List.mem_cons_self

@[simp] theorem commandEffect_sticky (s : State) (i : Instr) : (commandEffect s i).sticky = s.sticky := by
  obtain ⟨_, _, _, _, heff, -⟩ := commandEffect_frame i s
  rw [heff]

/-! ### What a step does to STICKY -/

/-- No register write but that of STATUS touches STICKY (10_state.md R15). -/
theorem State.writeReg_sticky {r : Reg} (hr : r ≠ .STATUS) (v : Word) (s : State) : (s.writeReg r v).sticky = s.sticky := by
  cases r with
  | STATUS => exact absurd rfl hr
  | _ => rfl

theorem State.writeReg_status_sticky (v : Word) (s : State) : (s.writeReg .STATUS v).sticky = (s.sticky && !v.getLsbD 8) := rfl

/-- How a step leaves STICKY: as it was, cleared by a write to STATUS or a reset, or set by a write to CMD that ends in an error
(10_state.md R15, 60_exceptions.md R144). -/
inductive StickyAfter (s t : State) : Prop where
  | kept (h : t.sticky = s.sticky)
  | clearedByStatus (v : Word) (rest : List HostAccess) (hp : s.pending = .write 0x04 .w32 v :: rest)
      (hv : v.getLsbD 8 = true) (h : t.sticky = false)
  | clearedByReset (rest : List HostAccess) (hp : s.pending = .reset :: rest) (h : t.sticky = false)
  | setByError (w : Word) (rest : List HostAccess) (hp : s.pending = .write 0x00 .w32 w :: rest) (hcode : t.code ≠ 0)
      (h : t.sticky = true)

theorem stickyAfter_writeReg {s : State} {r : Reg} {v : Word} {rest : List HostAccess}
    (hp : s.pending = .write r.offset .w32 v :: rest) : StickyAfter s ({ s with pending := rest }.writeReg r v) := by
  by_cases hr : r = .STATUS
  · subst hr
    cases hv : v.getLsbD 8 with
    | true => exact .clearedByStatus v rest hp hv (by rw [State.writeReg_status_sticky, hv, Bool.not_true, Bool.and_false])
    | false => exact .kept (by rw [State.writeReg_status_sticky, hv, Bool.not_false, Bool.and_true])
  · exact .kept (State.writeReg_sticky hr v _)

theorem step_sticky {s t : State} (h : step s = .next t) : StickyAfter s t := by
  cases step_cases h with
  | command i rest hp hexec =>
    rcases exec_next_cases hexec with ⟨e, rfl⟩ | ⟨-, rfl⟩
    · exact .setByError _ rest hp (errCode_ne_zero e) rfl
    · exact .kept (commandEffect_sticky _ i)
  | illegal w rest hp => exact .setByError w rest hp (errCode_ne_zero .op) rfl
  | write r v rest _ hp => exact stickyAfter_writeReg hp
  | reset rest hp => exact .clearedByReset rest hp rfl
  | idle | reserved | read | store | load => exact .kept rfl

/-! ### The obligations -/

/-- Settles O40: a command raises one error, whose code is not 0, or completes with an effect that leaves STICKY. -/
theorem commandIsAllOrNothing : Obligations.CommandIsAllOrNothing := by
  intro i s t ht
  rcases exec_next_cases ht with ⟨e, rfl⟩ | ⟨-, rfl⟩
  · exact .inr ⟨errCode_ne_zero e, raise_eq e s⟩
  · exact .inl ⟨rfl, commandEffect_sticky s i⟩

/-- Settles O41: the codes of `commandErrors`, after 0, are the row of the table. -/
theorem codesOfEachCommand : Obligations.CodesOfEachCommand := by
  intro i s t ht
  have hcode := exec_code_mem ht
  cases i <;> exact hcode

/-- Settles O49, by the four ways a step can leave STICKY. -/
theorem whatChangesSticky : Obligations.WhatChangesSticky := by
  intro s t ht
  cases step_sticky ht with
  | kept h => exact ⟨fun hset hclear => by simp [h, hset] at hclear, fun hclear hset => by simp [h, hclear] at hset⟩
  | clearedByStatus v rest hp hv h => exact ⟨fun _ _ => .inl ⟨v, rest, hp, hv⟩, fun _ hset => by simp [h] at hset⟩
  | clearedByReset rest hp h => exact ⟨fun _ _ => .inr ⟨rest, hp⟩, fun _ hset => by simp [h] at hset⟩
  | setByError w rest hp hcode h => exact ⟨fun _ hclear => by simp [h] at hclear, fun _ _ => ⟨⟨w, rest, hp⟩, hcode⟩⟩

end Sys2Proof.Machine

/-! The statements about reset and the end of a run (70_reset_and_hazards.md): what a reset access restores and keeps, and that every
command, every access the machine performs and every run of such accesses ends in a next state. -/

namespace Sys2Proof.Machine

open Sys2Proof.Safety

/-! ### A reset in a run -/

theorem step_reset {s : State} {rest : List HostAccess} (hp : s.pending = .reset :: rest) :
    step s = .next { s with pending := rest }.hostReset :=
  step_of_pending hp

/-- A reset in a run and the first reset give every register the same value (10_state.md R29). -/
theorem hostReset_readReg (s : State) (r : Reg) : s.hostReset.readReg r = (State.resetOf s.cfg).readReg r := by
  cases r <;> rfl

/-! ### What answers a next state -/

/-- A command raises an error or completes; both are next states (60_exceptions.md R131). -/
theorem exec_answers (i : Instr) (s : State) : ∃ t, exec i s = .next t := by
  rcases exec_cases i s with ⟨_, -, ht⟩ | ⟨-, ht⟩ <;> exact ⟨_, ht⟩

theorem writeCmd_answers (w : Word) (s : State) : ∃ t, writeCmd w s = .next t := by
  rcases writeCmd_cases w s with ⟨i, -, hw⟩ | hw
  · rw [hw]
    exact exec_answers i s
  · exact ⟨_, hw⟩

theorem writeOffset_answers (off : Nat) (v : Word) (s : State) : ∃ t, writeOffset off v s = .next t := by
  unfold writeOffset
  split
  · exact writeCmd_answers v s
  · exact ⟨_, rfl⟩
  · exact ⟨_, rfl⟩

/-- A register access that is a step of the host is not refused (30_encoding.md R62a). -/
theorem accessRefusal_of_wf {off : Nat} {width : AccessWidth} {v : Word}
    (h : (HostAccess.write off width v).wf = true ∨ (HostAccess.read off width).wf = true) :
    accessRefusal off width = none := by
  have hwf : (width = .w32 ∧ off % 4 = 0) ∧ off < 0x100 := by simpa [HostAccess.wf] using h
  obtain ⟨⟨hwidth, halign⟩, hblock⟩ := hwf
  exact accessRefusal_none.mpr ⟨hblock, hwidth, halign⟩

theorem step_answers_of_performable {s : State} {a : HostAccess} {rest : List HostAccess} (hp : s.pending = a :: rest)
    (ha : Performable s.cfg a) : ∃ t, step s = .next t := by
  cases a with
  | write off width v =>
    simp only [step_of_pending hp, hostAccess, accessRefusal_of_wf (.inl ha)]
    exact writeOffset_answers off v _
  | read off width =>
    obtain ⟨hblock, rfl, halign⟩ := accessRefusal_none.mp (accessRefusal_of_wf (v := 0) (.inr ha))
    exact ⟨_, step_read hp halign hblock⟩
  | store a v =>
    obtain ⟨haddr, hblock⟩ := ha
    exact ⟨_, step_store hp (of_decide_eq_true haddr) hblock⟩
  | load a =>
    obtain ⟨haddr, hblock⟩ := ha
    exact ⟨_, step_load hp (of_decide_eq_true haddr) hblock⟩
  | reset => exact ⟨_, step_reset hp⟩

/-! ### What a step leaves of the queue -/

theorem exec_pending {i : Instr} {s t : State} (h : exec i s = .next t) : t.pending = s.pending := by
  obtain ⟨_, _, _, _, _, _, rfl, -⟩ := exec_frame h
  rfl

/-- A step takes one access, or none of an empty queue. -/
theorem step_pending {s t : State} (h : step s = .next t) : t.pending = s.pending.tail := by
  cases step_cases h with
  | idle hp => rw [hp, List.tail_nil]
  | command i rest hp hexec => rw [exec_pending hexec, hp, List.tail_cons]
  | write r v rest _ hp => rw [State.writeReg_pending, hp, List.tail_cons]
  | illegal _ rest hp | reserved _ _ rest hp | read _ rest hp | store _ _ rest _ hp | load _ rest hp | reset rest hp =>
    rw [hp]
    rfl

/-- A run over the pending accesses `l`: each is performed under the configuration the run started with, which no step changes. -/
theorem runSteps_takes_all (l : List HostAccess) {s : State} (hp : s.pending = l) (hl : ∀ a ∈ l, Performable s.cfg a) :
    ∃ t, runSteps l.length s = .next t ∧ t.pending = [] := by
  induction l generalizing s with
  | nil => exact ⟨s, rfl, hp⟩
  | cons a rest ih =>
    obtain ⟨ha, hrest⟩ := List.forall_mem_cons.mp hl
    obtain ⟨u, hu⟩ := step_answers_of_performable hp ha
    have hup : u.pending = rest := by rw [step_pending hu, hp, List.tail_cons]
    rw [List.length_cons, runSteps_next hu]
    exact ih hup (by rwa [step_cfg hu])

/-! ### The obligations of tier 1 -/

/-- Settles O7: with nothing to take, a step answers the state it found. -/
theorem idleKeepsAllState : Obligations.IdleKeepsAllState := by
  intro s hp
  simp only [step, hp]

/-- Settles O9: no command faults or is refused. -/
theorem everyCommandEnds : Obligations.EveryCommandEnds := exec_answers

/-! ### The obligations of tier 2 -/

/-- Settles O8, by induction on the accesses pending. -/
theorem runEndsWithQueueEmpty : Obligations.RunEndsWithQueueEmpty := fun s hl => runSteps_takes_all s.pending rfl hl

/-- Settles O20: the registers and the extent are those of `resetValues`, and `State.hostReset` carries over the rest. -/
theorem hostResetKeepsMemory : Obligations.HostResetKeepsMemory := by
  intro s rest hc hp
  obtain ⟨-, hvalues⟩ := resetValues
  obtain ⟨hregs, -, -, -, hextW, hextH, -⟩ := hvalues s.cfg hc
  exact ⟨_, step_reset hp, fun r hr => (hostReset_readReg _ r).trans (hregs r hr), hextW, hextH, rfl, rfl, rfl, rfl, rfl,
    stageAfter_length _ _⟩

end Sys2Proof.Machine
